-- ==== Sys2Proof/Config.lean ====
section
/-! DEFINITION. The parameters of the block with the values this hardware takes (00_scope.md R3). The one open
parameter, the adder width `ACC_W`, is an argument of `Sys2Proof.Machine.accumulate` (R72). -/

namespace Sys2Proof.Config

/-- `NBYTES`: cells in the record (R3). -/
@[simp] abbrev nbytes : Nat := 18

/-- `BYTE_W`: width of a cell in bits (R3). -/
@[simp] abbrev byteW : Nat := 8

/-- `NBITS`: addressable bits of the record (R3). -/
@[simp] abbrev nbits : Nat := nbytes * byteW

/-- `CSUM_LEN`: cells summed, indices 0 to 16 (R3, R27). -/
@[simp] abbrev csumLen : Nat := 17

/-- `OP_W`: width of the opcode field (R3). -/
@[simp] abbrev opW : Nat := 8

/-- `IDX_W`: width of the index operand on the command port (R3). -/
@[simp] abbrev idxW : Nat := 8

/-- `CMD_W`: width of a command word (R3). -/
@[simp] abbrev cmdW : Nat := opW + idxW + byteW

end Sys2Proof.Config
end

