-- ==== Sys2Proof/Word.lean ====
section
/-! DEFINITION. The words of the BitRecord core: the byte of a cell, the 24-bit command word and the 144-bit
payload of `GET_RAW_BYTES` (00_scope.md R3, R5). Every value is unsigned and bit 0 is the least significant. -/

namespace Sys2Proof

/-- One cell of the record, or one data operand: 8 bits (R3 `BYTE_W`, R10). -/
abbrev Byte := BitVec 8

/-- One command word: 24 bits (R3 `CMD_W`, R41). -/
abbrev Word := BitVec 24

/-- The record as one 144-bit value (R3 `RDATA_W`, R24). -/
abbrev RData := BitVec 144

/-- The response word of an implementation that wants one: 146 bits (R50). -/
abbrev RespWord := BitVec 146

/-- The record: exactly 18 bytes, the length part of the type (10_state.md R10, R11). -/
abbrev Cells := Vector Byte 18

end Sys2Proof
end

