-- ==== Sys2Proof/Syntax.lean ====
section
/-! DEFINITION. The command set: the six operations of 30_encoding.md R42, one constructor per row of
spec/opcode_table.json. Index operands are natural numbers, as 92_eei_decisions.md D5 recommends (log entry 5);
the port delivers 0 to 255. Operand fields a command does not use are no operands (R44). -/

namespace Sys2Proof

/-- One command (R42). -/
inductive Instr where
  /-- `NEW`: make the record all zero (R80). -/
  | new
  /-- `GET_RAW_BYTES`: return the whole record (R82). -/
  | getRawBytes
  /-- `SET_BYTE_VALUE idx, data`: overwrite cell `idx` (R85). -/
  | setByteValue (idx : Nat) (data : Byte)
  /-- `SET_BIT idx`: set record bit `idx` (R90). -/
  | setBit (idx : Nat)
  /-- `CLEAR_BIT idx`: clear record bit `idx` (R91). -/
  | clearBit (idx : Nat)
  /-- `CALCULATE_CHECKSUM`: return the checksum byte (R100). -/
  | calculateChecksum
  deriving DecidableEq, Repr

end Sys2Proof
end

