-- ==== Sys2Proof/WellFormed.lean ====
section
/-! DEFINITION. Which commands the 24-bit format can carry: an index operand fits its 8-bit field
(30_encoding.md R41, R51 "An operand must fit its field (0 to 255)"). An index past the record's bounds is well
formed: it decodes and fails at execution (60_exceptions.md R118). -/

namespace Sys2Proof

/-- An index operand fits the `idx` field (R41, R51). -/
def idxFits (idx : Nat) : Bool := decide (idx < 2 ^ Config.idxW)

/-- The command can be written in format `C` (R41). -/
def Instr.wf : Instr → Bool
  | .new => true
  | .getRawBytes => true
  | .setByteValue idx _ => idxFits idx
  | .setBit idx => idxFits idx
  | .clearBit idx => idxFits idx
  | .calculateChecksum => true

end Sys2Proof
end

