-- ==== Sys2Proof/Decode.lean ====
section
/-! DEFINITION. Decoding and encoding of command words (30_encoding.md R41 to R47). The decoder is total on all
2^24 words: six opcodes name a command, every other opcode is refused by name. -/

namespace Sys2Proof

/-- `op = cmd[23:16]` (R41). -/
def opField (w : Word) : Byte := w.extractLsb' 16 8

/-- `idx = cmd[15:8]` (R41). -/
def idxField (w : Word) : Byte := w.extractLsb' 8 8

/-- `data = cmd[7:0]` (R41). -/
def dataField (w : Word) : Byte := w.extractLsb' 0 8

/-- Why a command word names no command. -/
inductive DecodeError where
  /-- `op` is 0x06 to 0xFF: reserved (R45). -/
  | reservedOp (op : Byte)
  deriving DecidableEq, Repr

/-- The decoding procedure (R47). The index is read unsigned at full width (R43); unused fields are ignored (R44). -/
def decode (w : Word) : Except DecodeError Instr :=
  match (opField w).toNat with
  | 0 => .ok .new
  | 1 => .ok .getRawBytes
  | 2 => .ok (.setByteValue (idxField w).toNat (dataField w))
  | 3 => .ok (.setBit (idxField w).toNat)
  | 4 => .ok (.clearBit (idxField w).toNat)
  | 5 => .ok .calculateChecksum
  | _ => .error (.reservedOp (opField w))

/-- The opcode of a command (R42). -/
def opcode : Instr → Byte
  | .new => 0x00
  | .getRawBytes => 0x01
  | .setByteValue _ _ => 0x02
  | .setBit _ => 0x03
  | .clearBit _ => 0x04
  | .calculateChecksum => 0x05

/-- Format `C`: `op` in `cmd[23:16]`, `idx` in `cmd[15:8]`, `data` in `cmd[7:0]` (R41). -/
def formatWord (op idx data : Byte) : Word :=
  op.setWidth 24 <<< 16 ||| idx.setWidth 24 <<< 8 ||| data.setWidth 24

/-- The canonical word of a command, zero in every unused field (R42, R44, R51). -/
def encode (i : Instr) : Word :=
  match i with
  | .new => formatWord (opcode i) 0 0
  | .getRawBytes => formatWord (opcode i) 0 0
  | .setByteValue idx data => formatWord (opcode i) (BitVec.ofNat 8 idx) data
  | .setBit idx => formatWord (opcode i) (BitVec.ofNat 8 idx) 0
  | .clearBit idx => formatWord (opcode i) (BitVec.ofNat 8 idx) 0
  | .calculateChecksum => formatWord (opcode i) 0 0

/-- The `mask` column of the opcode table, the same for all six rows (R42). -/
def rowMask : Word := 0xFF0000

/-- The `match` column of the opcode table (R42). -/
def rowMatch : Instr → Word
  | .new => 0x000000
  | .getRawBytes => 0x010000
  | .setByteValue _ _ => 0x020000
  | .setBit _ => 0x030000
  | .clearBit _ => 0x040000
  | .calculateChecksum => 0x050000

/-- The bits of the word that a command reads: the opcode and the operand fields it uses (R42, R44). -/
def usedBits : Instr → Word
  | .new => 0xFF0000
  | .getRawBytes => 0xFF0000
  | .setByteValue _ _ => 0xFFFFFF
  | .setBit _ => 0xFFFF00
  | .clearBit _ => 0xFFFF00
  | .calculateChecksum => 0xFF0000

/-- The 24-bit word whose low `nbits` bits are those of `w` and whose other bits are zero: bit 0 is `cmd[0]`, as in
spec/opcode_table.json (log entry 6). -/
def tableWord (nbits w : Nat) : Word := BitVec.ofNat 24 (w % 2 ^ nbits)

/-- The command the decoder reads from a word numbered as spec/opcode_table.json numbers it. A command is one 24-bit
word (R41), so more than 24 bits are no command. -/
def decodeTableWord (nbits w : Nat) : Option Instr :=
  if nbits ≤ Config.cmdW then
    match decode (tableWord nbits w) with
    | .ok i => some i
    | .error _ => none
  else none

end Sys2Proof
end

