-- ==== Sys2Proof/Machine/State.lean ====
section
/-! DEFINITION. The state of the block, a type of its own with exactly one field, the record (10_state.md R10, R12); and
the state of a run, which is the block with the host's side of the command port beside it (log entry 1). -/

namespace Sys2Proof.Machine

/-- Status of a response (30_encoding.md R49). -/
inductive Status where
  /-- The operation was performed. -/
  | ok
  /-- `SET_BIT` or `CLEAR_BIT` with `idx >= 144` (R111). -/
  | bitOutOfBounds
  /-- `SET_BYTE_VALUE` with `idx >= 18` (R112). -/
  | byteOutOfBounds
  /-- A reserved command word (R113). -/
  | illegalOp
  deriving DecidableEq, Repr

/-- Payload of a response: none, the 18 cells as 144 bits, or the checksum byte (R48). -/
inductive Payload where
  | none
  | bytes (rdata : RData)
  | sum (c : Byte)
  deriving DecidableEq, Repr

/-- One response: the tagged pair of R48. -/
structure Response where
  status : Status
  payload : Payload
  deriving DecidableEq, Repr

/-- What the host can do to the block, exhaustively (70_reset_and_hazards.md R142). -/
inductive HostAction where
  /-- Hardware reset, between commands and without a response (R130, R132). -/
  | reset
  /-- One command word at the command port (R40). -/
  | command (w : Word)
  deriving DecidableEq, Repr

/-- The state of the block: exactly one field, the record (R10, R12). Every meaning is a function of this type and of the
command alone (00_scope.md R7). -/
structure Block where
  bytes : Cells
  deriving DecidableEq, Repr

/-- What one command gives, `step(s, cmd) = (s', response)`: the block it leaves and the response it returns (00_scope.md
R7, 30_encoding.md R48). -/
abbrev Result := Block × Response

/-- A run in progress (70_reset_and_hazards.md R141), the state of the host interface's step.
* `block`: the block, with all the state the spec gives the machine (R10, R12).
* `port`: the host's actions not yet taken, first to be taken first. "The command stream is a parameter of the run
  supplied by the host, not state" (R7): it is no state of the block (log entry 1).
* `responses`: the responses returned so far, oldest first; no state of the block (log entry 1). -/
structure State where
  block : Block
  port : List HostAction
  responses : List Response
  deriving DecidableEq, Repr

/-- Reasons the machine stops with a fault. There are none: "Nothing in this core is fatal" (60_exceptions.md R117)
and every command word has a response (R141), so an error is a response and never a fault. Safe (log entry 15). -/
inductive Fault where
  deriving DecidableEq, Repr

/-- Reasons an instruction has no meaning. -/
inductive Refusal where
  /-- Raised only by an arm of `exec` whose instruction has no meaning yet; no arm is left so. Safe. -/
  | notModelled (mnemonic : String)
  deriving DecidableEq, Repr

/-- What a step answers. -/
abbrev Outcome := Host.Outcome State Fault Refusal

/-- The record after reset: all 18 cells 0x00 (10_state.md R16). -/
def zeroCells : Cells := Vector.replicate 18 0x00

/-- The block after reset (R16, R130). -/
def Block.reset : Block where
  bytes := zeroCells

/-- The machine right after reset (R16, R130). The empty port and the empty list of responses are the model's own
(DESIGN CHOICE, log entry 1). -/
def State.reset : State where
  block := Block.reset
  port := []
  responses := []

end Sys2Proof.Machine
end

