-- ==== Sys2Proof/Machine/Flags.lean ====
section
/-! DEFINITION. The conditions a command computes. The block has no flag (10_state.md R12): what stands here are the
two bounds comparators (40_datapath.md R64, R65), the numbers of the status codes (30_encoding.md R49), the payload
rule of a response (R48) and the response word (R50). -/

namespace Sys2Proof.Machine

/-- Bit bounds comparator: `idx < 144`, unsigned, on the whole index (R64). -/
def bitOk (idx : Nat) : Bool := decide (idx < Config.nbits)

/-- Byte bounds comparator: `idx < 18`, unsigned, on the whole index (R65). -/
def byteOk (idx : Nat) : Bool := decide (idx < Config.nbytes)

/-- The 2-bit status code (R49). -/
def statusCode : Status → BitVec 2
  | .ok => 0
  | .bitOutOfBounds => 1
  | .byteOutOfBounds => 2
  | .illegalOp => 3

/-- "every response whose status is not `OK` has payload *none*" (R48). -/
def responseWf (r : Response) : Bool :=
  match r.status with
  | .ok => true
  | .bitOutOfBounds => decide (r.payload = .none)
  | .byteOutOfBounds => decide (r.payload = .none)
  | .illegalOp => decide (r.payload = .none)

/-- The 146-bit words an implementation may send for a response: `resp[145:144]` is the status code, and of
`resp[143:0]` only the bits that carry the payload are fixed; every other bit is unspecified and left open
(R50, 93_implementation_defined.md U1, log entry 9). -/
def allowsWord (r : Response) (v : RespWord) : Bool :=
  decide (v.extractLsb' 144 2 = statusCode r.status) &&
    match r.payload with
    | .none => true
    | .bytes rdata => decide (v.extractLsb' 0 144 = rdata)
    | .sum c => decide (v.extractLsb' 0 8 = c)

end Sys2Proof.Machine
end

