-- ==== Sys2Proof/Machine/Operands.lean ====
section
/-! DEFINITION. The combinational datapath from an index to the written byte: bit-address decoder, mask generator,
read-modify-write multiplexer, byte-write multiplexer (40_datapath.md R60 to R63, R66 to R68). Each function is total;
for an out-of-range index its output is never used (R60, 92_eei_decisions.md D21, log entry 16). -/

namespace Sys2Proof.Machine

/-- `byte_index_of(bit) = bit / 8` (R60). -/
def byteIndexOf (bit : Nat) : Nat := bit / 8

/-- `intra_byte_position(bit) = bit - byte_index_of(bit) * 8` (R61). -/
def intraBytePosition (bit : Nat) : Nat := bit - byteIndexOf bit * 8

/-- `shift_for_position(pos) = 7 - pos` (R62). -/
def shiftForPosition (pos : Nat) : Nat := 7 - pos

/-- The shift of a record bit index: the decoder as a whole (R60 to R62). -/
def shiftOf (bit : Nat) : Nat := shiftForPosition (intraBytePosition bit)

/-- `mask = 1 << shift`, a byte with one bit set for a shift of 0 to 7 (R63). -/
def bitMask (shift : Nat) : Byte := 1#8 <<< shift

/-- The mask of a record bit index: the decoder followed by the mask generator (R60 to R63). -/
def maskOf (bit : Nat) : Byte := bitMask (shiftOf bit)

/-- Complement of a byte, taken in 8 bits (00_scope.md R6). -/
def not8 (v : Byte) : Byte := ~~~v

/-- The read-modify-write multiplexer for `SET_BIT`: `old | mask` (R66). -/
def rmwSet (mask old : Byte) : Byte := old ||| mask

/-- The read-modify-write multiplexer for `CLEAR_BIT`: `old & not8(mask)` (R66, R67). -/
def rmwClear (mask old : Byte) : Byte := old &&& not8 mask

/-- The byte-write multiplexer for `SET_BYTE_VALUE`: the data operand, whatever the old byte is (R68). -/
def byteWriteData (data : Byte) (_old : Byte) : Byte := data

end Sys2Proof.Machine
end

