-- ==== Sys2Proof/Machine/Ops.lean ====
section
/-! DEFINITION. The named operations over the block: answering a command and raising an error, write select, packing,
observation of one record bit, the checksum adder, reset (00_scope.md R6, 40_datapath.md R69 to R72, 20_memory.md R24); and
those over the host's side of a run. There is no return from an error to model: nothing is entered (60_exceptions.md
R117). -/

namespace Sys2Proof.Machine

/-- The run with another list of pending host actions; block and responses as they are. -/
def State.withPort (s : State) (port : List HostAction) : State := { s with port := port }

/-- The run with another block; port and responses as they are. -/
def State.withBlock (s : State) (b : Block) : State := { s with block := b }

/-- The run after a command with this result: the block is the one the command left, and its response is returned to the
host after all earlier ones (R48, R30). -/
def State.answered (s : State) (r : Result) : State :=
  { s with block := r.1, responses := s.responses ++ [r.2] }

/-- The command ends with this response and leaves this block (R6, R48). -/
def respond (status : Status) (payload : Payload) (b : Block) : Result := (b, ⟨status, payload⟩)

/-- `raise E`: the command ends with status `E` and no payload, and no state is written (R6, R115). An error is not a
trap: nothing is saved and control goes nowhere (R116). -/
def raise (e : Status) (b : Block) : Result := respond e .none b

/-- Write select: cell `sel` receives the multiplexer's output when the write enable holds; every other cell keeps
its value (R70). `wdata` is the output of the byte-write multiplexer as a function of the old byte of the selected
cell (R66, R68). -/
def writeSelect (we : Bool) (sel : Nat) (wdata : Byte → Byte) (cells : Cells) : Cells :=
  cells.mapIdx fun k old => if we = true ∧ k = sel then wdata old else old

/-- The three indexed mutators: the bounds check comes before any write; a failed check raises, a passed one writes
the one selected cell and answers `OK` with no payload (R69, R70, R115, R48). -/
def mutate (err : Status) (we : Bool) (sel : Nat) (wdata : Byte → Byte) (b : Block) : Result :=
  if we then respond .ok .none ⟨writeSelect we sel wdata b.bytes⟩ else raise err b

/-- `rdata = bytes[0] :: bytes[1] :: ... :: bytes[17]`, the left operand more significant: cell `i` stands in
`rdata[143 - 8*i : 136 - 8*i]` (R82, R24 and the slices of R26). -/
def packCells (cells : Cells) : RData :=
  (cells[0].setWidth 144 <<< 136) ||| (cells[1].setWidth 144 <<< 128) ||| (cells[2].setWidth 144 <<< 120)
    ||| (cells[3].setWidth 144 <<< 112) ||| (cells[4].setWidth 144 <<< 104) ||| (cells[5].setWidth 144 <<< 96)
    ||| (cells[6].setWidth 144 <<< 88) ||| (cells[7].setWidth 144 <<< 80) ||| (cells[8].setWidth 144 <<< 72)
    ||| (cells[9].setWidth 144 <<< 64) ||| (cells[10].setWidth 144 <<< 56) ||| (cells[11].setWidth 144 <<< 48)
    ||| (cells[12].setWidth 144 <<< 40) ||| (cells[13].setWidth 144 <<< 32) ||| (cells[14].setWidth 144 <<< 24)
    ||| (cells[15].setWidth 144 <<< 16) ||| (cells[16].setWidth 144 <<< 8) ||| cells[17].setWidth 144

/-- The record held in one 144-bit register: `bytes[i] = rdata[143 - 8*i : 136 - 8*i]` (R24, U9). -/
def unpackCells (rdata : RData) : Cells := Vector.ofFn fun i => rdata.extractLsb' (136 - 8 * i.val) 8

/-- Observation, not an operation: the value of record bit `b`, `bytes[b / 8][7 - (b % 8)]` (R6 `BitOf`, R14). -/
def bitOf (cells : Cells) (b : Fin 144) : Bool :=
  (cells[b.val / 8]'(by omega)).getLsbD (7 - b.val % 8)

/-- The summed region: cells 0 to 16 (R27, R71). -/
def summedCells (cells : Cells) : List Byte := cells.toList.take Config.csumLen

/-- The exact sum of cells 0 to 16 over the natural numbers (R71). -/
def checksumSum (cells : Cells) : Nat := ((summedCells cells).map BitVec.toNat).sum

/-- `checksum(s) = sum & 0xFF = sum % 256` (R71). -/
def checksum (cells : Cells) : Byte := BitVec.ofNat 8 (checksumSum cells % 256)

/-- The adder of width `w` (the open parameter `ACC_W`), wrapping at every addition (R72, log entry 12). -/
def accumulate (w : Nat) (cells : Cells) : BitVec w :=
  (summedCells cells).foldl (fun acc b => acc + b.setWidth w) 0

/-- Hardware reset: the record becomes all zero and no response is produced (70_reset_and_hazards.md R130, R132). -/
def hardwareReset (s : State) : State := s.withBlock Block.reset

end Sys2Proof.Machine
end

