-- ==== Sys2Proof/Machine/BitRmw.lean ====
section
/-! DEFINITION. Bit read-modify-write: `SET_BIT` and `CLEAR_BIT` (43_bit_rmw.md). -/

namespace Sys2Proof.Machine

/-- `SET_BIT idx`: raises `BitOutOfBounds` when `idx >= 144`, else the addressed bit of cell `idx / 8` becomes 1 and
the other seven keep their values (R90). -/
def blockSetBit (idx : Nat) (b : Block) : Result :=
  mutate .bitOutOfBounds (bitOk idx) (byteIndexOf idx) (rmwSet (maskOf idx)) b

/-- `SET_BIT idx` in a run. -/
def execSetBit (idx : Nat) (s : State) : Outcome := .next (s.answered (blockSetBit idx s.block))

/-- `CLEAR_BIT idx`: raises `BitOutOfBounds` when `idx >= 144`, else the addressed bit of cell `idx / 8` becomes 0 and
the other seven keep their values (R91). -/
def blockClearBit (idx : Nat) (b : Block) : Result :=
  mutate .bitOutOfBounds (bitOk idx) (byteIndexOf idx) (rmwClear (maskOf idx)) b

/-- `CLEAR_BIT idx` in a run. -/
def execClearBit (idx : Nat) (s : State) : Outcome := .next (s.answered (blockClearBit idx s.block))

end Sys2Proof.Machine
end

