-- ==== Sys2Proof/Machine/ByteWrite.lean ====
section
/-! DEFINITION. Byte write: `SET_BYTE_VALUE` (42_byte_write.md). -/

namespace Sys2Proof.Machine

/-- `SET_BYTE_VALUE idx, data`: raises `ByteOutOfBounds` when `idx >= 18`, else cell `idx` becomes `data` (R85). The
selected cell is the index itself (R69). -/
def blockSetByteValue (idx : Nat) (data : Byte) (b : Block) : Result :=
  mutate .byteOutOfBounds (byteOk idx) idx (byteWriteData data) b

/-- `SET_BYTE_VALUE idx, data` in a run. -/
def execSetByteValue (idx : Nat) (data : Byte) (s : State) : Outcome :=
  .next (s.answered (blockSetByteValue idx data s.block))

end Sys2Proof.Machine
end

