-- ==== Sys2Proof/Machine/Checksum.lean ====
section
/-! DEFINITION. Checksum: `CALCULATE_CHECKSUM` (44_checksum.md). -/

namespace Sys2Proof.Machine

/-- `CALCULATE_CHECKSUM`: answers `OK` with the low 8 bits of the sum of cells 0 to 16; writes nothing, in particular
not cell 17; cannot fail (R100, R101). -/
def blockCalculateChecksum (b : Block) : Result := respond .ok (.sum (checksum b.bytes)) b

/-- `CALCULATE_CHECKSUM` in a run. -/
def execCalculateChecksum (s : State) : Outcome := .next (s.answered (blockCalculateChecksum s.block))

end Sys2Proof.Machine
end

