-- ==== Sys2Proof/Machine/Construct.lean ====
section
/-! DEFINITION. Construction and raw read: `NEW` and `GET_RAW_BYTES` (41_construct_read.md). -/

namespace Sys2Proof.Machine

/-- `NEW`: all 18 cells become 0x00, whatever they held; answers `OK`; cannot fail (R80). -/
def blockNew (_ : Block) : Result := respond .ok .none ⟨zeroCells⟩

/-- `NEW` in a run. -/
def execNew (s : State) : Outcome := .next (s.answered (blockNew s.block))

/-- `GET_RAW_BYTES`: answers `OK` with a copy of the 18 cells; writes nothing; cannot fail (R82, R83). -/
def blockGetRawBytes (b : Block) : Result := respond .ok (.bytes (packCells b.bytes)) b

/-- `GET_RAW_BYTES` in a run. -/
def execGetRawBytes (s : State) : Outcome := .next (s.answered (blockGetRawBytes s.block))

end Sys2Proof.Machine
end

