-- ==== Sys2Proof/Machine/Block.lean ====
section
/-! DEFINITION. The block by itself, on the one-field state of 10_state.md R12 and without the host's side of a run: one
step of it is `step(s, cmd) = (s', response)` (00_scope.md R7). -/

namespace Sys2Proof.Machine

/-- One command on the block (30_encoding.md R42). -/
def blockExec (i : Instr) (b : Block) : Result :=
  match i with
  | .new => blockNew b
  | .getRawBytes => blockGetRawBytes b
  | .setByteValue idx data => blockSetByteValue idx data b
  | .setBit idx => blockSetBit idx b
  | .clearBit idx => blockClearBit idx b
  | .calculateChecksum => blockCalculateChecksum b

/-- What the block answers to a reserved word: `IllegalOp`, no payload and no state change (R45, R113; log entry 3). -/
def blockReserved (b : Block) : Result := raise .illegalOp b

/-- `step(s, cmd)`: a total function of the state and the command word (R7, 30_encoding.md R47). -/
def blockStep (w : Word) (b : Block) : Result :=
  match decode w with
  | .ok i => blockExec i b
  | .error (.reservedOp _) => blockReserved b

/-- A list of command words from a block: the block after the last one, and every response in order
(70_reset_and_hazards.md R141, 20_memory.md R30). -/
def blockRun : List Word → Block → Block × List Response
  | [], b => (b, [])
  | w :: ws, b =>
    let r := blockStep w b
    let rest := blockRun ws r.1
    (rest.1, r.2 :: rest.2)

end Sys2Proof.Machine
end

