-- ==== Sys2Proof/Machine/Dispatch.lean ====
section
/-! DEFINITION. One arm per command of the opcode table (30_encoding.md R42). -/

namespace Sys2Proof.Machine

def exec (i : Instr) (s : State) : Host.Outcome State Fault Refusal :=
  match i with
  | .new => Sys2Proof.Machine.execNew s
  | .getRawBytes => Sys2Proof.Machine.execGetRawBytes s
  | .setByteValue idx data => Sys2Proof.Machine.execSetByteValue idx data s
  | .setBit idx => Sys2Proof.Machine.execSetBit idx s
  | .clearBit idx => Sys2Proof.Machine.execClearBit idx s
  | .calculateChecksum => Sys2Proof.Machine.execCalculateChecksum s

end Sys2Proof.Machine
end

