-- ==== Sys2Proof/Machine/Port.lean ====
section
/-! DEFINITION. The command port: what the block does with the host's next action (30_encoding.md R40, R47,
70_reset_and_hazards.md R132, R142). -/

namespace Sys2Proof.Machine

/-- One command word: the command it names is executed; a reserved word is answered with `IllegalOp`, no payload and
no state change (R45, R47, R113; log entry 3). -/
def runCommand (w : Word) (s : State) : Outcome :=
  match decode w with
  | .ok i => exec i s
  | .error (.reservedOp _) => .next (s.answered (blockReserved s.block))

/-- The block takes one host action: a reset or a command (R142). -/
def takeAction (a : HostAction) (s : State) : Outcome :=
  match a with
  | .reset => .next (hardwareReset s)
  | .command w => runCommand w s

/-- The host's next action is taken off the port and performed; with nothing at the port the block waits and changes
nothing (R116, R19, R142; log entry 2). -/
def portStep (s : State) : Outcome :=
  match s.port with
  | [] => .next s
  | a :: rest => takeAction a (s.withPort rest)

/-- The host presents one more command before all pending actions. -/
def presentWord (w : Word) (s : State) : State := s.withPort (.command w :: s.port)

end Sys2Proof.Machine
end

