-- ==== Sys2Proof/Machine/Step.lean ====
section
/-! DEFINITION. One step of the machine: one host action (00_scope.md R7, 20_memory.md R30). -/

namespace Sys2Proof.Machine

/-- One step: total and deterministic (R7). -/
def step : State → Host.Outcome State Fault Refusal := portStep

/-- The state in which the very next step runs the command word `w`, numbered as in spec/opcode_table.json: the word
stands at the head of the port, and nothing else is changed. The block loads no program; the host presents one
command after another (R13, R142; log entry 6). -/
def State.withFetchWord (s : State) (nbits w : Nat) : State := presentWord (tableWord nbits w) s

end Sys2Proof.Machine
end

