-- ==== Sys2Proof/Machine/Assembler.lean ====
section
/-! DEFINITION. The two spellings of a command (30_encoding.md R51): the assembly spelling `SET_BIT 127` and the source
spelling `set_bit(127)`, read from and written to a line of characters. One line is one command; `--` begins a comment.
What R51 leaves open (blanks around operands, the case of hexadecimal digits) is log entry 14. -/

namespace Sys2Proof.Machine

/-- The mnemonic in capitals (R42, R51). -/
def assemblyName : Instr → List Char
  | .new => ['N', 'E', 'W']
  | .getRawBytes => ['G', 'E', 'T', '_', 'R', 'A', 'W', '_', 'B', 'Y', 'T', 'E', 'S']
  | .setByteValue _ _ => ['S', 'E', 'T', '_', 'B', 'Y', 'T', 'E', '_', 'V', 'A', 'L', 'U', 'E']
  | .setBit _ => ['S', 'E', 'T', '_', 'B', 'I', 'T']
  | .clearBit _ => ['C', 'L', 'E', 'A', 'R', '_', 'B', 'I', 'T']
  | .calculateChecksum =>
    ['C', 'A', 'L', 'C', 'U', 'L', 'A', 'T', 'E', '_', 'C', 'H', 'E', 'C', 'K', 'S', 'U', 'M']

/-- The name of the source's function: the mnemonic in small letters (R42, R51). -/
def sourceName (i : Instr) : List Char := (assemblyName i).map Char.toLower

/-- The operands in the order both spellings write them (R51). -/
def operandsOf : Instr → List Nat
  | .new => []
  | .getRawBytes => []
  | .setByteValue idx data => [idx, data.toNat]
  | .setBit idx => [idx]
  | .clearBit idx => [idx]
  | .calculateChecksum => []

/-- The command of a name with these operands, if there is one; `nameOf` is the spelling in use. -/
def commandNamed (nameOf : Instr → List Char) (name : List Char) (ops : List Nat) : Option Instr :=
  match ops with
  | [] => [Instr.new, .getRawBytes, .calculateChecksum].find? fun i => nameOf i == name
  | [idx] => [Instr.setBit idx, .clearBit idx].find? fun i => nameOf i == name
  | [idx, data] => [Instr.setByteValue idx (BitVec.ofNat 8 data)].find? fun i => nameOf i == name
  | _ => none

/-- The value of a digit character in a base. -/
def digitValue (base : Nat) (ch : Char) : Option Nat :=
  let n := ch.toNat
  let v := if 48 ≤ n ∧ n ≤ 57 then n - 48 else if 65 ≤ n ∧ n ≤ 70 then n - 55
    else if 97 ≤ n ∧ n ≤ 102 then n - 87 else base
  if v < base then some v else none

/-- The value of a run of digits, most significant first, after the value `acc` of those before it. -/
def digitsValue (base : Nat) : Nat → List Char → Option Nat
  | acc, [] => some acc
  | acc, ch :: rest =>
    match digitValue base ch with
    | some d => digitsValue base (acc * base + d) rest
    | none => none

/-- An unsigned literal: decimal `127`, hexadecimal `0x7F` or binary `0b01111111` (R51). -/
def literalValue : List Char → Option Nat
  | [] => none
  | '0' :: 'x' :: d :: ds => digitsValue 16 0 (d :: ds)
  | '0' :: 'b' :: d :: ds => digitsValue 2 0 (d :: ds)
  | ds => digitsValue 10 0 ds

/-- A literal that fits its field, 0 to 255 (R51). -/
def operandValue (cs : List Char) : Option Nat :=
  match literalValue cs with
  | some n => if n < 256 then some n else none
  | none => none

/-- Blanks between the words of a line. -/
def isBlank (ch : Char) : Bool := ch == ' ' || ch == '\t'

/-- A line without blanks at its two ends. -/
def trim (cs : List Char) : List Char := ((cs.dropWhile isBlank).reverse.dropWhile isBlank).reverse

/-- A line up to the first `--` (R51). -/
def dropComment : List Char → List Char
  | [] => []
  | '-' :: '-' :: _ => []
  | ch :: rest => ch :: dropComment rest

/-- The parts of a list of operands, which are separated by commas (R51). -/
def splitCommas : List Char → List (List Char)
  | [] => [[]]
  | ',' :: rest => [] :: splitCommas rest
  | ch :: rest =>
    match splitCommas rest with
    | [] => [[ch]]
    | part :: parts => (ch :: part) :: parts

/-- Every operand of a list, or nothing if one is no literal of its field. -/
def operandValues : List (List Char) → Option (List Nat)
  | [] => some []
  | part :: parts =>
    match operandValue (trim part), operandValues parts with
    | some n, some ns => some (n :: ns)
    | _, _ => none

/-- The operands written between the name and the end of the command; none where nothing is written. -/
def readOperands (cs : List Char) : Option (List Nat) :=
  match trim cs with
  | [] => some []
  | ch :: rest => operandValues (splitCommas (ch :: rest))

/-- The letters of a mnemonic. -/
def isNameChar (ch : Char) : Bool := ch.isAlpha || ch == '_'

/-- The name of a command and what follows it, read in the spelling `nameOf`. -/
def readCommand (nameOf : Instr → List Char) (name cs : List Char) : Option Instr :=
  match readOperands cs with
  | some ops => commandNamed nameOf name ops
  | none => none

/-- One line of source: the command it spells, in either spelling (R51). -/
def assembleLine (line : List Char) : Option Instr :=
  let body := trim (dropComment line)
  let name := body.takeWhile isNameChar
  match body.dropWhile isNameChar with
  | [] => readCommand assemblyName name []
  | '(' :: inner =>
    match inner.reverse with
    | ')' :: rev => readCommand sourceName name rev.reverse
    | _ => none
  | ch :: rest => if isBlank ch then readCommand assemblyName name rest else none

/-- The command word of a line: unused fields are zero (R44, R51). -/
def assembleWord (line : List Char) : Option Word := (assembleLine line).map encode

/-- Operands in decimal, separated by a comma and a blank. -/
def printOperands : List Nat → List Char
  | [] => []
  | [n] => Nat.toDigits 10 n
  | n :: m :: ns => Nat.toDigits 10 n ++ ',' :: ' ' :: printOperands (m :: ns)

/-- The assembly spelling of a command (R51). -/
def printAssembly (i : Instr) : List Char :=
  match operandsOf i with
  | [] => assemblyName i
  | n :: ns => assemblyName i ++ ' ' :: printOperands (n :: ns)

/-- The source spelling of a command (R51). -/
def printSource (i : Instr) : List Char := sourceName i ++ '(' :: (printOperands (operandsOf i) ++ [')'])

end Sys2Proof.Machine
end

