-- ==== Sys2Proof/Safety.lean ====
section
/-! DEFINITION. What claims speak of: sequences of commands, responses that agree with their status, runs that met a
reserved word, command words that fail. -/

namespace Sys2Proof.Machine

/-- Commands one after another, each from the state the one before left (20_memory.md R30). -/
def execAll : List Instr → State → Outcome
  | [], s => .next s
  | i :: rest, s =>
    match exec i s with
    | .next t => execAll rest t
    | .fault r => .fault r
    | .refused r => .refused r

/-- Two commands issued back to back leave the same record in either order (20_memory.md R31). -/
def sameInEitherOrder (s : State) (i j : Instr) : Prop :=
  ∃ t u, execAll [i, j] s = .next t ∧ execAll [j, i] s = .next u ∧ t.block.bytes = u.block.bytes

/-- The command completes with the packed record at `reg` and the response `r`, the port and the earlier responses as they
were: what a block that holds its record in one 144-bit register shows the host (93_implementation_defined.md U9). -/
def completesPacked (o : Outcome) (s : State) (reg : RData) (r : Response) : Prop :=
  ∃ t, o = .next t ∧ packCells t.block.bytes = reg ∧ t.responses = s.responses ++ [r] ∧ t.port = s.port

/-- Every response returned so far agrees with its status: an error carries no payload (30_encoding.md R48). -/
def responsesWf (s : State) : Prop := ∀ r ∈ s.responses, responseWf r = true

/-- The run met a reserved command word: 60_exceptions.md R113 asks a model to count such a run as refused (log entry 3). -/
def metReserved (s : State) : Prop := ∃ r ∈ s.responses, r.status = .illegalOp

/-- The command words that answer with an error (60_exceptions.md R110), read off the fields of the word. -/
def failingWord (w : Word) : Prop :=
  6 ≤ (opField w).toNat ∨
  (((opField w).toNat = 3 ∨ (opField w).toNat = 4) ∧ 144 ≤ (idxField w).toNat) ∨
  ((opField w).toNat = 2 ∧ 18 ≤ (idxField w).toNat)

/-- How many of the pending host actions are commands; a reset gets no response (70_reset_and_hazards.md R132). -/
def commandCount : List HostAction → Nat
  | [] => 0
  | .reset :: rest => commandCount rest
  | .command _ :: rest => commandCount rest + 1

/-- The response a command word gets, in terms of its fields alone, as far as the status goes (60_exceptions.md R110, R118): the
opcode is examined first, then the one comparator that opcode uses. -/
def statusOfWord (w : Word) : Status :=
  let op := (opField w).toNat
  if 6 ≤ op then .illegalOp
  else if op = 3 ∨ op = 4 then (if (idxField w).toNat < 144 then .ok else .bitOutOfBounds)
  else if op = 2 then (if (idxField w).toNat < 18 then .ok else .byteOutOfBounds)
  else .ok

/-- The mutators with an index in range: with `NEW`, the only commands that can change the record (10_state.md R19). -/
def mutatorInRange : Instr → Prop
  | .new => True
  | .getRawBytes => False
  | .setByteValue idx _ => idx < 18
  | .setBit idx => idx < 144
  | .clearBit idx => idx < 144
  | .calculateChecksum => False

end Sys2Proof.Machine
end

