-- ==== Sys2Proof/Certificates/Slice0/Obligations.lean ====
section
/-! DEFINITION. The statements for the provers. Each docstring names the rule of spec/ it formalises. -/

open Sys2Proof Sys2Proof.Machine

/-! ### Encoding -/

/-- R41, R42, R47: decoding the canonical word of a command that fits the format gives the command back. -/
def Obligations.DecodeOfEncodeIsIdentity : Prop :=
  ∀ i : Instr, i.wf = true → decode (encode i) = .ok i

/-- R43, R44, R51: a word that names a command is that command's canonical word in every bit the command uses. -/
def Obligations.EncodeOfDecodeKeepsUsedBits : Prop :=
  ∀ (w : Word) (i : Instr), decode w = .ok i → i.wf = true ∧ encode i = w &&& usedBits i

/-- R42: the `match` and `mask` columns of the opcode table select exactly the words of each command, with the operands
in their fields. -/
def Obligations.OpcodeTableSelectsTheCommand : Prop :=
  ∀ w : Word,
    (w &&& 0xFF0000 = 0x000000 ↔ decode w = .ok .new) ∧
    (w &&& 0xFF0000 = 0x010000 ↔ decode w = .ok .getRawBytes) ∧
    (w &&& 0xFF0000 = 0x020000 ↔
      decode w = .ok (.setByteValue (w.toNat / 256 % 256) (BitVec.ofNat 8 (w.toNat % 256)))) ∧
    (w &&& 0xFF0000 = 0x030000 ↔ decode w = .ok (.setBit (w.toNat / 256 % 256))) ∧
    (w &&& 0xFF0000 = 0x040000 ↔ decode w = .ok (.clearBit (w.toNat / 256 % 256))) ∧
    (w &&& 0xFF0000 = 0x050000 ↔ decode w = .ok .calculateChecksum)

/-- R46: the decoder is total on the 2^24 words: `op` 0 to 5 names a command, every other `op` is refused by name. -/
def Obligations.ReservedOpcodesNameNoCommand : Prop :=
  ∀ w : Word,
    ((∃ i, decode w = .ok i) ↔ w.toNat / 65536 < 6) ∧
    (6 ≤ w.toNat / 65536 → decode w = .error (.reservedOp (BitVec.ofNat 8 (w.toNat / 65536))))

/-- The worked words of 30_encoding.md section 7 and 95_test_vectors.md section 2.9. -/
def Obligations.WordsOfTheSpecDecode : Prop :=
  decode 0x000000 = .ok .new ∧
  decode 0x010000 = .ok .getRawBytes ∧
  decode 0x02020F = .ok (.setByteValue 2 0x0F) ∧
  decode 0x0212AA = .ok (.setByteValue 18 0xAA) ∧
  decode 0x037FAB = .ok (.setBit 127) ∧
  decode 0x047800 = .ok (.clearBit 120) ∧
  decode 0x05ABCD = .ok .calculateChecksum ∧
  decode 0x060000 = .error (.reservedOp 0x06)

/-- R44: for a command that ignores operand fields, the step is the same for every value of those fields, and the
assembler writes zero there. -/
def Obligations.UnusedOperandFieldsAreIgnored : Prop :=
  (∀ (s : State) (v w : Word), opField v = opField w →
    ((opField v).toNat = 0 ∨ (opField v).toNat = 1 ∨ (opField v).toNat = 5 ∨
      (((opField v).toNat = 3 ∨ (opField v).toNat = 4) ∧ idxField v = idxField w)) →
    step (presentWord v s) = step (presentWord w s)) ∧
  (∀ i : Instr, encode i &&& ~~~ usedBits i = 0)

/-- R51: both spellings of a command are read back as the command they spell. -/
def Obligations.AssemblerReadsBothSpellings : Prop :=
  ∀ i : Instr, i.wf = true → assembleLine (printAssembly i) = some i ∧ assembleLine (printSource i) = some i

/-! ### The step, the port, reset -/

/-- R7, R47: when the word at the port names a command, the step is that command on the state with the word taken. -/
def Obligations.StepRunsTheDecodedCommand : Prop :=
  ∀ (s : State) (w : Word) (rest : List HostAction) (i : Instr),
    s.port = .command w :: rest → decode w = .ok i → step s = exec i { s with port := rest }

/-- The word the host's question places is the word the next step runs (log entry 6). -/
def Obligations.PlacedWordIsTheNextCommand : Prop :=
  ∀ (s : State) (w : Nat) (i : Instr),
    decodeTableWord 24 w = some i → step (s.withFetchWord 24 w) = exec i s

/-- R116, R19, R142 (log entry 2): with nothing at the port the block waits and changes nothing. -/
def Obligations.EmptyPortWaits : Prop :=
  ∀ s : State, s.port = [] → step s = .next s

/-- R113: `IllegalOp` is the status of exactly the words with `op >= 6`; such a word has no payload and changes no
state, and the run counts as one that met a reserved word. -/
def Obligations.IllegalOpExactlyForReservedWords : Prop :=
  statusCode .illegalOp = 3 ∧
  ∀ (s : State) (w : Word) (rest : List HostAction), s.port = .command w :: rest →
    ∃ t r, step s = .next t ∧ t.responses = s.responses ++ [r] ∧
      (r.status = .illegalOp ↔ 6 ≤ (opField w).toNat) ∧
      (6 ≤ (opField w).toNat →
        r.payload = .none ∧ t = { s with port := rest, responses := s.responses ++ [r] } ∧ metReserved t)

/-- R130: a reset makes the record all zero, as `NEW` does, but produces no response and has no other effect. -/
def Obligations.HostResetZeroesTheRecord : Prop :=
  ∀ (s : State) (rest : List HostAction), s.port = .reset :: rest →
    ∃ t, step s = .next t ∧ (∀ k : Fin 18, t.block.bytes[k] = 0) ∧ t.port = rest ∧ t.responses = s.responses ∧
      t.block.bytes = State.reset.block.bytes ∧ ∃ u, exec .new s = .next u ∧ u.block.bytes = t.block.bytes

/-- R16: after reset every cell is zero, so all 144 record bits are 0. -/
def Obligations.ResetLeavesEveryBitZero : Prop :=
  (∀ k : Fin 18, State.reset.block.bytes[k] = 0) ∧ (∀ b : Fin 144, bitOf State.reset.block.bytes b = false)

/-- No step and no command faults, is refused or gets stuck. R141 and R117 say that no run hangs and nothing is fatal; three
parts are the model's choice and no rule of the spec: that no fault and no refusal exists at all (DEDUCED, log entry 15),
that a step with nothing at the port is an idle step (DEDUCED, log entry 2), and that a run goes on after a reserved word,
which R45, R113 and U4 advise a model to refuse (DESIGN CHOICE, log entry 3). -/
def Obligations.EveryStepAnswersANextState : Prop :=
  (∀ s : State, ∃ t, step s = .next t) ∧ (∀ (i : Instr) (s : State), ∃ t, exec i s = .next t)

/-- R141: `n` host actions are done after `n` steps; the port is then empty, and every command has got exactly one
response, after all earlier ones. That a run goes on after a reserved word with a response to it is the model's choice
(DESIGN CHOICE, log entry 3), and so is a reset as one of the actions at the port (DESIGN CHOICE, log entry 7). -/
def Obligations.RunTakesOneStepPerHostAction : Prop :=
  ∀ s : State, ∃ t : State,
    (Host.Core.run Sys2Proof.core s.port.length s : Outcome) = .next t ∧ t.port = [] ∧
      ∃ rs : List Response, t.responses = s.responses ++ rs ∧ rs.length = commandCount s.port

/-- R83, R142: a step never changes a response already sent: a command adds one, a reset or an empty port none. -/
def Obligations.ResponsesSentNeverChange : Prop :=
  ∀ s t : State, step s = .next t →
    ∃ rs : List Response, t.responses = s.responses ++ rs ∧
      rs.length + commandCount t.port = commandCount s.port

/-- R48: a step from any state whose responses agree with their statuses keeps that so. -/
def Obligations.StepKeepsResponsesWellFormed : Prop :=
  ∀ s t : State, responsesWf s → step s = .next t → responsesWf t

/-- R48 at reset: no response has been returned. -/
def Obligations.ResetResponsesAreWellFormed : Prop := responsesWf State.reset

/-- R7, R12, R142: what a command does to the record and what it answers depend on the record and on the command word
alone, not on what is pending or was answered before. -/
def Obligations.StepDependsOnRecordAndCommandOnly : Prop :=
  ∀ (s u : State) (w : Word) (rs ru : List HostAction),
    s.block = u.block → s.port = .command w :: rs → u.port = .command w :: ru →
    ∃ (b : Block) (r : Response),
      step s = .next ⟨b, rs, s.responses ++ [r]⟩ ∧ step u = .next ⟨b, ru, u.responses ++ [r]⟩

/-- R19: only a reset and the four mutators with an index in range can change the record. -/
def Obligations.OnlyMutatorsAndResetChangeTheRecord : Prop :=
  ∀ s t : State, step s = .next t → t.block.bytes ≠ s.block.bytes →
    (∃ rest, s.port = .reset :: rest) ∨
    (∃ w rest i, s.port = .command w :: rest ∧ decode w = .ok i ∧ mutatorInRange i)

/-! ### Errors -/

/-- R111: `BitOutOfBounds` is raised by `SET_BIT` and `CLEAR_BIT` and by nothing else, exactly when the index is 144 or
more; nothing is written. -/
def Obligations.BitOutOfBoundsExactly : Prop :=
  statusCode .bitOutOfBounds = 1 ∧
  (∀ (idx : Nat) (s : State), 144 ≤ idx →
    exec (.setBit idx) s = .next { s with responses := s.responses ++ [⟨.bitOutOfBounds, .none⟩] } ∧
    exec (.clearBit idx) s = .next { s with responses := s.responses ++ [⟨.bitOutOfBounds, .none⟩] }) ∧
  (∀ (i : Instr) (s t : State) (r : Response), exec i s = .next t → t.responses = s.responses ++ [r] →
    (r.status = .bitOutOfBounds ↔ ∃ idx, (i = .setBit idx ∨ i = .clearBit idx) ∧ 144 ≤ idx))

/-- R112: `ByteOutOfBounds` is raised by `SET_BYTE_VALUE` and by nothing else, exactly when the index is 18 or more,
whatever the data operand is; nothing is written. -/
def Obligations.ByteOutOfBoundsExactly : Prop :=
  statusCode .byteOutOfBounds = 2 ∧
  (∀ (idx : Nat) (data : Byte) (s : State), 18 ≤ idx →
    exec (.setByteValue idx data) s = .next { s with responses := s.responses ++ [⟨.byteOutOfBounds, .none⟩] }) ∧
  (∀ (i : Instr) (s t : State) (r : Response), exec i s = .next t → t.responses = s.responses ++ [r] →
    (r.status = .byteOutOfBounds ↔ ∃ idx data, i = .setByteValue idx data ∧ 18 ≤ idx))

/-- R110, R118: the status of every response is fixed by the fields of the word: the opcode first, then the one
comparator that opcode uses. -/
def Obligations.StatusIsFixedByTheWord : Prop :=
  ∀ (s : State) (w : Word) (rest : List HostAction), s.port = .command w :: rest →
    ∃ t p, step s = .next t ∧ t.responses = s.responses ++ [⟨statusOfWord w, p⟩] ∧
      (statusOfWord w ≠ .ok → p = .none)

/-- R115: a command whose response is not `OK` leaves the record as it was, and no later command has started. -/
def Obligations.FailedCommandChangesNothing : Prop :=
  ∀ (s t : State) (w : Word) (rest : List HostAction) (r : Response),
    s.port = .command w :: rest → step s = .next t → t.responses = s.responses ++ [r] → r.status ≠ .ok →
    t = { s with port := rest, responses := s.responses ++ [r] }

/-- R117: any number of consecutive failing commands leaves the record unchanged. -/
def Obligations.FailingCommandsLeaveTheRecord : Prop :=
  ∀ s : State, (∀ a ∈ s.port, ∃ w, a = .command w ∧ failingWord w) →
    ∃ t : State, (Host.Core.run Sys2Proof.core s.port.length s : Outcome) = .next t ∧ t.block.bytes = s.block.bytes

/-! ### The datapath -/

/-- R60, R61, R62: the bit-address decoder, as arithmetic and, for an 8-bit index, as bits. -/
def Obligations.BitAddressDecoder : Prop :=
  (∀ bit : Nat, byteIndexOf bit = bit / 8 ∧ intraBytePosition bit = bit % 8 ∧ intraBytePosition bit ≤ 7 ∧
    shiftForPosition (intraBytePosition bit) = 7 - intraBytePosition bit ∧
    (bit ≤ 143 → byteIndexOf bit ≤ 17)) ∧
  (∀ idx : Byte, byteIndexOf idx.toNat = (idx.extractLsb' 3 5).toNat ∧
    intraBytePosition idx.toNat = (idx.extractLsb' 0 3).toNat ∧
    shiftForPosition (intraBytePosition idx.toNat) = (idx.extractLsb' 0 3 ^^^ 0b111#3).toNat)

/-- R63: the mask generator is a 3-to-8 one-hot decoder: `1 << shift`, never truncated, equal to `0x80 >> pos`. -/
def Obligations.MaskGeneratorIsOneHot : Prop :=
  ∀ shift : Fin 8, (bitMask shift.val).toNat = 2 ^ shift.val ∧
    (∀ k : Fin 8, (bitMask shift.val).getLsbD k.val = decide (k = shift)) ∧
    bitMask shift.val = 0x80#8 >>> (7 - shift.val)

/-- R67: the clear mask is the 8-bit complement of the single-bit mask; the forbidden `0xFE << shift` agrees with it at
shift 0 only, because it has zeros in every bit below the shift as well. -/
def Obligations.ClearMaskIsTheComplement : Prop :=
  ∀ shift : Fin 8, (not8 (bitMask shift.val)).toNat = 255 - 2 ^ shift.val ∧
    (∀ k : Fin 8, (not8 (bitMask shift.val)).getLsbD k.val = !decide (k = shift)) ∧
    (∀ k : Fin 8, (0xFE#8 <<< shift.val).getLsbD k.val = decide (shift < k)) ∧
    (not8 (bitMask shift.val) = 0xFE#8 <<< shift.val ↔ shift = 0)

/-- R64: the bit bounds comparator and its equivalent forms, at every index width. -/
def Obligations.BitBoundsComparator : Prop :=
  ∀ idx : Nat, (bitOk idx = true ↔ idx < 144) ∧ (bitOk idx = true ↔ byteIndexOf idx < 18) ∧
    (bitOk idx = true ↔ idx / 256 = 0 ∧
      ¬ (idx.testBit 7 = true ∧ (idx.testBit 6 = true ∨ idx.testBit 5 = true ∨ idx.testBit 4 = true)))

/-- R65: the byte bounds comparator and its form in bits, for an 8-bit index. -/
def Obligations.ByteBoundsComparator : Prop :=
  (∀ idx : Nat, byteOk idx = true ↔ idx < 18) ∧
  (∀ idx : Byte, byteOk idx.toNat = true ↔ idx.extractLsb' 5 3 = 0 ∧
    ¬ (idx.getLsbD 4 = true ∧ (idx.getLsbD 3 = true ∨ idx.getLsbD 2 = true ∨ idx.getLsbD 1 = true)))

/-- R68, R69, R70: the next-state function of the three indexed mutators, on every index. -/
def Obligations.WriteSelectOfTheIndexedMutators : Prop :=
  ∀ (s : State) (idx : Nat) (data : Byte),
    (∃ t, exec (.setByteValue idx data) s = .next t ∧ ∀ k : Fin 18,
      t.block.bytes[k] = if idx < 18 ∧ k.val = idx then data else s.block.bytes[k]) ∧
    (∃ t, exec (.setBit idx) s = .next t ∧ ∀ k : Fin 18,
      t.block.bytes[k] = if idx < 144 ∧ k.val = idx / 8 then s.block.bytes[k] ||| 1#8 <<< (7 - idx % 8) else s.block.bytes[k]) ∧
    (∃ t, exec (.clearBit idx) s = .next t ∧ ∀ k : Fin 18,
      t.block.bytes[k] = if idx < 144 ∧ k.val = idx / 8 then s.block.bytes[k] &&& ~~~(1#8 <<< (7 - idx % 8)) else s.block.bytes[k]) ∧
    (idx < 144 → idx / 8 < 18)

/-! ### The commands: result, response and frame -/

/-- R80: `NEW` makes all 18 cells zero whatever they held and answers `OK` with no payload; earlier responses and the
port are unchanged. -/
def Obligations.NewZeroesEveryCell : Prop :=
  ∀ s : State, ∃ t, exec .new s = .next t ∧ (∀ k : Fin 18, t.block.bytes[k] = 0) ∧
    t.responses = s.responses ++ [⟨.ok, .none⟩] ∧ t.port = s.port

/-- R82, R24: `GET_RAW_BYTES` answers `OK` with cell `i` in `rdata[143-8i : 136-8i]` for every `i`, and changes no cell. -/
def Obligations.GetRawBytesReturnsEveryCell : Prop :=
  ∀ s : State, ∃ (t : State) (rdata : RData), exec .getRawBytes s = .next t ∧
    t.responses = s.responses ++ [⟨.ok, .bytes rdata⟩] ∧
    (∀ i : Fin 18, rdata.extractLsb' (136 - 8 * i.val) 8 = s.block.bytes[i]) ∧
    (∀ k : Fin 18, t.block.bytes[k] = s.block.bytes[k]) ∧ t.port = s.port

/-- R85: `SET_BYTE_VALUE` with an index below 18 replaces the cell by the data operand, whatever it held, answers `OK`
with no payload, and leaves every other cell, the earlier responses and the port unchanged. -/
def Obligations.SetByteValueReplacesTheCell : Prop :=
  ∀ (s : State) (idx : Nat) (data : Byte), idx < 18 →
    ∃ t, exec (.setByteValue idx data) s = .next t ∧
      (∀ k : Fin 18, k.val = idx → t.block.bytes[k] = data) ∧
      (∀ k : Fin 18, k.val ≠ idx → t.block.bytes[k] = s.block.bytes[k]) ∧
      t.responses = s.responses ++ [⟨.ok, .none⟩] ∧ t.port = s.port

/-- R90: `SET_BIT` with an index below 144 ORs the mask into cell `idx / 8`, answers `OK` with no payload, and leaves
every other cell, the earlier responses and the port unchanged. -/
def Obligations.SetBitOrsTheMask : Prop :=
  ∀ (s : State) (idx : Nat), idx < 144 →
    ∃ t, exec (.setBit idx) s = .next t ∧
      (∀ k : Fin 18, k.val = idx / 8 → t.block.bytes[k] = s.block.bytes[k] ||| 1#8 <<< (7 - idx % 8)) ∧
      (∀ k : Fin 18, k.val ≠ idx / 8 → t.block.bytes[k] = s.block.bytes[k]) ∧
      t.responses = s.responses ++ [⟨.ok, .none⟩] ∧ t.port = s.port

/-- R91: `CLEAR_BIT` with an index below 144 ANDs the complement of the mask into cell `idx / 8`, answers `OK` with no
payload, and leaves every other cell, the earlier responses and the port unchanged. -/
def Obligations.ClearBitAndsTheComplement : Prop :=
  ∀ (s : State) (idx : Nat), idx < 144 →
    ∃ t, exec (.clearBit idx) s = .next t ∧
      (∀ k : Fin 18, k.val = idx / 8 → t.block.bytes[k] = s.block.bytes[k] &&& ~~~(1#8 <<< (7 - idx % 8))) ∧
      (∀ k : Fin 18, k.val ≠ idx / 8 → t.block.bytes[k] = s.block.bytes[k]) ∧
      t.responses = s.responses ++ [⟨.ok, .none⟩] ∧ t.port = s.port

/-- R100, R71: `CALCULATE_CHECKSUM` answers `OK` with the sum of cells 0 to 16 modulo 256, and changes no cell, cell 17
included. -/
def Obligations.CalculateChecksumReturnsTheSum : Prop :=
  ∀ s : State, ∃ (t : State) (c : Byte), exec .calculateChecksum s = .next t ∧
    t.responses = s.responses ++ [⟨.ok, .sum c⟩] ∧
    c.toNat = (∑ k : Fin 17, (s.block.bytes[k.val]).toNat) % 256 ∧
    (∀ k : Fin 18, t.block.bytes[k] = s.block.bytes[k]) ∧ t.port = s.port

/-- Frame (R17, R19): when a command answers a next state, the port is unchanged, the earlier responses stand, and every
cell is unchanged but those the command's row of R17 lists. -/
def Obligations.CommandsChangeOnlyTheirOwnCells : Prop :=
  ∀ (i : Instr) (s t : State), exec i s = .next t →
    t.port = s.port ∧ (∃ r, t.responses = s.responses ++ [r]) ∧
    (i = .getRawBytes ∨ i = .calculateChecksum → ∀ k : Fin 18, t.block.bytes[k] = s.block.bytes[k]) ∧
    (∀ idx data, i = .setByteValue idx data → ∀ k : Fin 18, k.val ≠ idx → t.block.bytes[k] = s.block.bytes[k]) ∧
    (∀ idx, i = .setBit idx ∨ i = .clearBit idx → ∀ k : Fin 18, k.val ≠ byteIndexOf idx → t.block.bytes[k] = s.block.bytes[k])

/-- R17: the cells each command's result depends on, in two runs whose records may differ. `NEW` leaves the same block and
`SET_BYTE_VALUE` the same cell whatever the records were; the bit commands leave the same addressed cell if it was the same;
the responses of these four are the same whatever the records were. The response of `GET_RAW_BYTES` depends on all 18 cells:
it is the same exactly when every cell is the same. The response of `CALCULATE_CHECKSUM` depends on cells 0 to 16. -/
def Obligations.ResultsDependOnlyOnTheListedCells : Prop :=
  ∀ (s u s' u' : State) (r r' : Response),
    s'.responses = s.responses ++ [r] → u'.responses = u.responses ++ [r'] →
    (exec .new s = .next s' → exec .new u = .next u' → r = r' ∧ s'.block = u'.block) ∧
    (exec .getRawBytes s = .next s' → exec .getRawBytes u = .next u' →
      (r = r' ↔ ∀ k : Fin 18, s.block.bytes[k] = u.block.bytes[k])) ∧
    (∀ (idx : Nat) (data : Byte),
      exec (.setByteValue idx data) s = .next s' → exec (.setByteValue idx data) u = .next u' →
      r = r' ∧ ∀ k : Fin 18, k.val = idx → s'.block.bytes[k] = u'.block.bytes[k]) ∧
    (∀ idx : Nat, exec (.setBit idx) s = .next s' → exec (.setBit idx) u = .next u' →
      r = r' ∧ ∀ k : Fin 18, k.val = idx / 8 → s.block.bytes[k] = u.block.bytes[k] →
        s'.block.bytes[k] = u'.block.bytes[k]) ∧
    (∀ idx : Nat, exec (.clearBit idx) s = .next s' → exec (.clearBit idx) u = .next u' →
      r = r' ∧ ∀ k : Fin 18, k.val = idx / 8 → s.block.bytes[k] = u.block.bytes[k] →
        s'.block.bytes[k] = u'.block.bytes[k]) ∧
    (exec .calculateChecksum s = .next s' → exec .calculateChecksum u = .next u' →
      (∀ k : Fin 17, s.block.bytes[k.val] = u.block.bytes[k.val]) → r = r')

/-! ### Laws of the bit view and of sequences -/

/-- R74: `SET_BIT b` and `CLEAR_BIT b` change record bit `b` and none of the other 143, and distinct indices never name
the same storage bit. -/
def Obligations.BitCommandsChangeExactlyOneBit : Prop :=
  (∀ (s : State) (b : Fin 144),
    (∃ t, exec (.setBit b.val) s = .next t ∧ bitOf t.block.bytes b = true ∧
      ∀ c : Fin 144, c ≠ b → bitOf t.block.bytes c = bitOf s.block.bytes c) ∧
    (∃ t, exec (.clearBit b.val) s = .next t ∧ bitOf t.block.bytes b = false ∧
      ∀ c : Fin 144, c ≠ b → bitOf t.block.bytes c = bitOf s.block.bytes c)) ∧
  (∀ b c : Fin 144, byteIndexOf b.val = byteIndexOf c.val → shiftOf b.val = shiftOf c.val → b = c) ∧
  (∀ (byte : Fin 18) (shift : Fin 8), ∃ b : Fin 144, byteIndexOf b.val = byte.val ∧ shiftOf b.val = shift.val)

/-- R25: a byte write gives record bit `8*i + pos` the bit `value[7 - pos]`, and no other record bit changes. -/
def Obligations.ByteWriteSetsItsEightBits : Prop :=
  ∀ (s : State) (i : Fin 18) (data : Byte), ∃ t, exec (.setByteValue i.val data) s = .next t ∧
    (∀ (b : Fin 144) (pos : Fin 8), b.val = 8 * i.val + pos.val → bitOf t.block.bytes b = data.getLsbD (7 - pos.val)) ∧
    (∀ b : Fin 144, b.val / 8 ≠ i.val → bitOf t.block.bytes b = bitOf s.block.bytes b)

/-- R24, R6: in the payload of `GET_RAW_BYTES` record bit `b` is `rdata[143 - b]`. -/
def Obligations.RawBytesShowEveryRecordBit : Prop :=
  ∀ (s t : State) (rdata : RData), exec .getRawBytes s = .next t →
    t.responses = s.responses ++ [⟨.ok, .bytes rdata⟩] →
    ∀ b : Fin 144, rdata.getLsbD (143 - b.val) = bitOf s.block.bytes b

/-- R75: `SET_BIT`, `CLEAR_BIT`, `SET_BYTE_VALUE` and `NEW` issued twice equal once, on the record and in the responses. -/
def Obligations.MutatorsAreIdempotent : Prop :=
  (∀ old mask : Byte, (old ||| mask) ||| mask = old ||| mask ∧
    (old &&& not8 mask) &&& not8 mask = old &&& not8 mask) ∧
  (∀ (s : State) (i : Instr), mutatorInRange i →
    ∃ t u, exec i s = .next t ∧ exec i t = .next u ∧ u.block.bytes = t.block.bytes ∧
      u.responses = s.responses ++ [⟨.ok, .none⟩, ⟨.ok, .none⟩])

/-- R31: the exact conditions under which two successful mutators give the same record in either order. -/
def Obligations.CommutationTable : Prop :=
  ∀ (s : State) (b c : Fin 144) (i j : Fin 18) (v w : Byte),
    sameInEitherOrder s (.setBit b.val) (.setBit c.val) ∧
    sameInEitherOrder s (.clearBit b.val) (.clearBit c.val) ∧
    (sameInEitherOrder s (.setBit b.val) (.clearBit c.val) ↔ b ≠ c) ∧
    (sameInEitherOrder s (.setByteValue i.val v) (.setByteValue j.val w) ↔ i ≠ j ∨ v = w) ∧
    (sameInEitherOrder s (.setByteValue i.val v) (.setBit b.val) ↔ b.val / 8 ≠ i.val ∨ v &&& maskOf b.val ≠ 0) ∧
    (sameInEitherOrder s (.setByteValue i.val v) (.clearBit b.val) ↔ b.val / 8 ≠ i.val ∨ v &&& maskOf b.val = 0) ∧
    ¬ sameInEitherOrder s .new (.setBit b.val) ∧
    sameInEitherOrder s .new (.clearBit b.val) ∧
    (sameInEitherOrder s .new (.setByteValue i.val v) ↔ v = 0) ∧
    sameInEitherOrder s .new .new

/-- R92: setting bit 120, then bit 127, then clearing bit 127 leaves bit 120 set and bit 127 cleared; and, in the order
that tells the forbidden mask apart, clearing bit 120 leaves bit 127 set; from any record. -/
def Obligations.RegressionScenario : Prop :=
  ∀ s : State,
    (∃ t, execAll [.setBit 120, .setBit 127, .clearBit 127] s = .next t ∧
      bitOf t.block.bytes 120 = true ∧ bitOf t.block.bytes 127 = false) ∧
    (∃ t, execAll [.setBit 120, .setBit 127, .clearBit 120] s = .next t ∧
      bitOf t.block.bytes 120 = false ∧ bitOf t.block.bytes 127 = true) ∧
    (s.block.bytes = State.reset.block.bytes → ∃ t, execAll [.setBit 120, .setBit 127, .clearBit 127] s = .next t ∧
      t.block.bytes[15] = 0x80)

/-- R93: of `SET_BIT b` and `CLEAR_BIT b` the later one decides bit `b`, whatever it was before; all other bits are
untouched by both; and two bit commands on different bits commute. -/
def Obligations.LaterBitCommandDecides : Prop :=
  (∀ (s : State) (b : Fin 144),
    (∃ t, execAll [.setBit b.val, .clearBit b.val] s = .next t ∧ bitOf t.block.bytes b = false ∧
      ∀ c : Fin 144, c ≠ b → bitOf t.block.bytes c = bitOf s.block.bytes c) ∧
    (∃ t, execAll [.clearBit b.val, .setBit b.val] s = .next t ∧ bitOf t.block.bytes b = true ∧
      ∀ c : Fin 144, c ≠ b → bitOf t.block.bytes c = bitOf s.block.bytes c)) ∧
  (∀ (s : State) (b c : Fin 144) (i j : Instr), b ≠ c →
    (i = .setBit b.val ∨ i = .clearBit b.val) → (j = .setBit c.val ∨ j = .clearBit c.val) →
    ∃ t u, execAll [i, j] s = .next t ∧ execAll [j, i] s = .next u ∧ t.block.bytes = u.block.bytes)

/-! ### The checksum -/

/-- R72: an adder of any width of at least 8 bits gives the same checksum byte, and 13 bits is the least width at which
it always holds the exact sum, which is at most 4335. -/
def Obligations.ChecksumDoesNotDependOnAdderWidth : Prop :=
  (∀ cells : Cells,
    (∀ w : Nat, 8 ≤ w → (accumulate w cells).toNat % 256 = (checksum cells).toNat) ∧
    (∀ w : Nat, 13 ≤ w → (accumulate w cells).toNat = checksumSum cells) ∧
    checksumSum cells ≤ 4335) ∧
  (∃ cells : Cells, checksumSum cells = 4335 ∧ (accumulate 12 cells).toNat ≠ checksumSum cells)

/-- R100, R71: cell 17 never matters, and swapping two of cells 0 to 16 does not change the checksum. -/
def Obligations.ChecksumIgnoresCell17AndOrder : Prop :=
  (∀ x y : Cells, (∀ k : Fin 17, x[k.val] = y[k.val]) → checksum x = checksum y) ∧
  (∀ (x y : Cells) (i j : Fin 17), x[i.val] = y[j.val] → x[j.val] = y[i.val] →
    (∀ k : Fin 17, k ≠ i → k ≠ j → x[k.val] = y[k.val]) → checksum x = checksum y)

/-- R86: a byte write to cell 0 to 16 changes the checksum by `data - old` modulo 256, and a write to cell 17 does not
change it. -/
def Obligations.ByteWriteEffectOnChecksum : Prop :=
  ∀ (s : State) (idx : Fin 18) (data : Byte), ∃ t, exec (.setByteValue idx.val data) s = .next t ∧
    (idx.val < 17 → checksum t.block.bytes = checksum s.block.bytes + (data - s.block.bytes[idx])) ∧
    (idx.val = 17 → checksum t.block.bytes = checksum s.block.bytes)

/-- R94: a bit command on bit 0 to 135 that changes the bit adds or subtracts its mask modulo 256; one that does not
change the bit, or one on bit 136 to 143, does not change the checksum. -/
def Obligations.BitCommandEffectOnChecksum : Prop :=
  ∀ (s : State) (b : Fin 144),
    (∃ t, exec (.setBit b.val) s = .next t ∧
      (b.val ≤ 135 → bitOf s.block.bytes b = false → checksum t.block.bytes = checksum s.block.bytes + maskOf b.val) ∧
      (bitOf s.block.bytes b = true → checksum t.block.bytes = checksum s.block.bytes) ∧
      (136 ≤ b.val → checksum t.block.bytes = checksum s.block.bytes)) ∧
    (∃ t, exec (.clearBit b.val) s = .next t ∧
      (b.val ≤ 135 → bitOf s.block.bytes b = true → checksum t.block.bytes = checksum s.block.bytes - maskOf b.val) ∧
      (bitOf s.block.bytes b = false → checksum t.block.bytes = checksum s.block.bytes) ∧
      (136 ≤ b.val → checksum t.block.bytes = checksum s.block.bytes))

/-! ### Representation and response word -/

/-- U9, R24: the record held in one 144-bit register is an equivalent design. Packing is a bijection that takes the reset
record to 0, and every command is one operation on the register alone, with the same response: `GET_RAW_BYTES` returns the
register itself, `CALCULATE_CHECKSUM` sums its slices `rdata[143-8i : 136-8i]` for `i` in 0 to 16, a mutator writes its slice
or its one bit, and a mutator out of range leaves the register as it is and answers its error. A reserved word also leaves
it as it is; that the run goes on there is the model's choice (DESIGN CHOICE, log entry 3). -/
def Obligations.PackedRegisterRefinesTheRecord : Prop :=
  (∀ cells : Cells, unpackCells (packCells cells) = cells) ∧
  (∀ r : RData, packCells (unpackCells r) = r) ∧
  packCells Block.reset.bytes = 0 ∧
  ∀ (s : State) (reg : RData), packCells s.block.bytes = reg →
    completesPacked (exec .new s) s 0 ⟨.ok, .none⟩ ∧
    completesPacked (exec .getRawBytes s) s reg ⟨.ok, .bytes reg⟩ ∧
    (∀ (idx : Nat) (data : Byte), idx < 18 →
      completesPacked (exec (.setByteValue idx data) s) s
        (reg &&& ~~~((0xFF#144) <<< (136 - 8 * idx)) ||| data.setWidth 144 <<< (136 - 8 * idx)) ⟨.ok, .none⟩) ∧
    (∀ (idx : Nat) (data : Byte), 18 ≤ idx →
      completesPacked (exec (.setByteValue idx data) s) s reg ⟨.byteOutOfBounds, .none⟩) ∧
    (∀ idx : Nat, idx < 144 →
      completesPacked (exec (.setBit idx) s) s (reg ||| 1#144 <<< (143 - idx)) ⟨.ok, .none⟩ ∧
      completesPacked (exec (.clearBit idx) s) s (reg &&& ~~~(1#144 <<< (143 - idx))) ⟨.ok, .none⟩) ∧
    (∀ idx : Nat, 144 ≤ idx →
      completesPacked (exec (.setBit idx) s) s reg ⟨.bitOutOfBounds, .none⟩ ∧
      completesPacked (exec (.clearBit idx) s) s reg ⟨.bitOutOfBounds, .none⟩) ∧
    completesPacked (exec .calculateChecksum s) s reg
      ⟨.ok, .sum (BitVec.ofNat 8 (∑ i : Fin 17, (reg.extractLsb' (136 - 8 * i.val) 8).toNat))⟩ ∧
    (∀ w : Word, 6 ≤ (opField w).toNat → completesPacked (runCommand w s) s reg ⟨.illegalOp, .none⟩)

/-- R49, R50: the two status bits of every response word of a response are its status code, and the codes tell the four
statuses apart. -/
def Obligations.ResponseWordCarriesTheStatus : Prop :=
  (∀ (r : Response) (v : RespWord), allowsWord r v = true → v.toNat / 2 ^ 144 = (statusCode r.status).toNat) ∧
  (∀ a b : Status, statusCode a = statusCode b → a = b) ∧
  (statusCode .ok = 0 ∧ statusCode .bitOutOfBounds = 1 ∧ statusCode .byteOutOfBounds = 2 ∧ statusCode .illegalOp = 3)

/-- R48, R50: the host, which knows the command it sent, reads the whole response off any word an implementation may
send for it; the unspecified bits never matter. -/
def Obligations.ResponseWordDeterminesTheResponse : Prop :=
  ∀ (s u s' u' : State) (w : Word) (r q : Response) (v : RespWord),
    runCommand w s = .next s' → s'.responses = s.responses ++ [r] →
    runCommand w u = .next u' → u'.responses = u.responses ++ [q] →
    allowsWord r v = true → allowsWord q v = true → r = q

/-! ### The block by itself -/

/-- R7, R12: the state of the block is the record and nothing else, and a step of a run is `step(s, cmd) = (s', response)` of
the block: it replaces the block by `s'`, takes the command off the port and adds the response. That the port and the past
responses stand beside the block is the model's choice (DESIGN CHOICE, log entry 1), and so is that a run goes on after a
reserved word (DESIGN CHOICE, log entry 3). -/
def Obligations.StepIsTheBlocksStep : Prop :=
  (∀ b c : Block, b.bytes = c.bytes → b = c) ∧
  ∀ (s : State) (w : Word) (rest : List HostAction), s.port = .command w :: rest →
    step s = .next ⟨(blockStep w s.block).1, rest, s.responses ++ [(blockStep w s.block).2]⟩

/-- R141: a run of `n` command words takes `n` steps and returns exactly the block's `n` responses, in order; a closing
`GET_RAW_BYTES` returns the final record and changes nothing. That a run goes on after a reserved word is the model's choice
(DESIGN CHOICE, log entry 3). -/
def Obligations.RunIsTheBlocksRun : Prop :=
  ∀ (s : State) (ws : List Word), s.port = ws.map .command →
    (Host.Core.run Sys2Proof.core ws.length s : Outcome) =
      .next ⟨(blockRun ws s.block).1, [], s.responses ++ (blockRun ws s.block).2⟩ ∧
    (blockRun ws s.block).2.length = ws.length ∧
    blockRun (ws ++ [0x010000]) s.block =
      ((blockRun ws s.block).1,
        (blockRun ws s.block).2 ++ [⟨.ok, .bytes (packCells (blockRun ws s.block).1.bytes)⟩])
end

