-- ==== Sys2Proof/Laws/Assembler.lean ====
section
/-! SUPPORT. How the pieces of the assembler behave on text that holds no comment, comma or blank of its own. -/

namespace Sys2Proof.Machine

/-- Decimal digits, the only characters of a printed operand. -/
def isDecimal (ch : Char) : Bool := decide (48 ≤ ch.toNat ∧ ch.toNat ≤ 57)

/-- A line without a minus sign holds no comment. -/
theorem dropComment_of_no_dash (cs : List Char) (h : ∀ c ∈ cs, c ≠ '-') : dropComment cs = cs := by
  induction cs with
  | nil => rfl
  | cons c cs ih =>
    have hc := h c (by simp)
    have ht := ih fun d hd => h d (by simp [hd])
    unfold dropComment
    split
    · contradiction
    · rename_i e; exact absurd (List.cons.inj e).1 hc
    · rename_i e
      obtain ⟨rfl, rfl⟩ := List.cons.inj e
      rw [ht]

/-- A part of a list of operands without a comma is not split. -/
theorem splitCommas_of_no_comma (cs : List Char) (h : ∀ c ∈ cs, c ≠ ',') : splitCommas cs = [cs] := by
  induction cs with
  | nil => rfl
  | cons c cs ih =>
    have hc := h c (by simp)
    have ht := ih fun d hd => h d (by simp [hd])
    unfold splitCommas
    split
    · contradiction
    · rename_i e; exact absurd (List.cons.inj e).1 hc
    · rename_i e
      obtain ⟨rfl, rfl⟩ := List.cons.inj e
      rw [ht]

/-- A comma ends the first part of a list of operands. -/
theorem splitCommas_comma (cs rest : List Char) (h : ∀ c ∈ cs, c ≠ ',') :
    splitCommas (cs ++ ',' :: rest) = cs :: splitCommas rest := by
  induction cs with
  | nil => simp [splitCommas]
  | cons c cs ih =>
    have hc := h c (by simp)
    have ht := ih fun d hd => h d (by simp [hd])
    rw [List.cons_append, splitCommas.eq_3 _ _ hc, ht]

/-- Leading blanks are dropped before a character that is no blank. -/
theorem dropWhile_isBlank_cons (c : Char) (cs : List Char) (h : isBlank c = false) :
    (c :: cs).dropWhile isBlank = c :: cs := by
  simp [h]

/-- A line that begins and ends with characters that are no blanks is left as it is. -/
theorem trim_of_ends (c d : Char) (cs ds : List Char) (e : c :: cs = ds ++ [d])
    (hc : isBlank c = false) (hd : isBlank d = false) : trim (c :: cs) = c :: cs := by
  unfold trim
  rw [dropWhile_isBlank_cons c cs hc, e, List.reverse_append, List.reverse_singleton, List.singleton_append,
    dropWhile_isBlank_cons d _ hd]
  simp

/-- A decimal digit is no blank, comma, minus sign or letter. -/
theorem isDecimal_facts (c : Char) (h : isDecimal c = true) :
    isBlank c = false ∧ c ≠ ',' ∧ c ≠ '-' ∧ c ≠ ')' ∧ isNameChar c = false := by
  have hn : 48 ≤ c.toNat ∧ c.toNat ≤ 57 := by simpa [isDecimal] using h
  have ne (d : Char) (hd : d.toNat < 48 ∨ 57 < d.toNat) : c ≠ d := by rintro rfl; omega
  refine ⟨?_, ne _ (by decide), ne _ (by decide), ne _ (by decide), ?_⟩
  · simp [isBlank, ne ' ' (by decide), ne '\t' (by decide)]
  · have : c = Char.ofNat c.toNat := by simp
    rw [this]
    generalize c.toNat = n at hn
    obtain ⟨h1, h2⟩ := hn
    interval_cases n <;> decide

/-- A printed operand is a run of decimal digits, and it is read back as its value. -/
theorem printed_operand (n : Nat) (h : n < 256) :
    (∀ c ∈ Nat.toDigits 10 n, isDecimal c = true) ∧ Nat.toDigits 10 n ≠ [] ∧
      operandValue (Nat.toDigits 10 n) = some n := by
  have all : ∀ m : Fin 256, (Nat.toDigits 10 m.val).all isDecimal = true ∧ Nat.toDigits 10 m.val ≠ [] ∧
      operandValue (Nat.toDigits 10 m.val) = some m.val := by decide +kernel
  obtain ⟨h1, h2, h3⟩ := all ⟨n, h⟩
  exact ⟨fun c hc => List.all_eq_true.mp h1 c hc, h2, h3⟩

/-- A printed operand is not trimmed. -/
theorem trim_printed (n : Nat) (h : n < 256) : trim (Nat.toDigits 10 n) = Nat.toDigits 10 n := by
  obtain ⟨hd, hne, _⟩ := printed_operand n h
  have hl := hd _ (List.getLast_mem hne)
  have el := (List.dropLast_append_getLast hne).symm
  generalize hc : Nat.toDigits 10 n = cs at *
  cases cs with
  | nil => exact absurd rfl hne
  | cons c cs =>
    exact trim_of_ends c _ cs _ el (isDecimal_facts c (hd c (by simp))).1 (isDecimal_facts _ hl).1

end Sys2Proof.Machine
end

