-- ==== Sys2Proof/Laws/Decode.lean ====
section
/-! SUPPORT. The fields of a word in format `C`, and the word as its fields (30_encoding.md R41). -/

namespace Sys2Proof

theorem opField_formatWord (op idx data : Byte) : opField (formatWord op idx data) = op := by
  ext k hk
  interval_cases k <;> simp [opField, formatWord]

theorem idxField_formatWord (op idx data : Byte) : idxField (formatWord op idx data) = idx := by
  ext k hk
  interval_cases k <;> simp [idxField, formatWord]

theorem dataField_formatWord (op idx data : Byte) : dataField (formatWord op idx data) = data := by
  ext k hk
  interval_cases k <;> simp [dataField, formatWord]

/-- A word is its three fields. -/
theorem formatWord_fields (w : Word) : formatWord (opField w) (idxField w) (dataField w) = w := by
  ext k hk
  interval_cases k <;> simp [formatWord, opField, idxField, dataField]

/-- Two words with the same three fields are the same word. -/
theorem word_ext {v w : Word} (ho : opField v = opField w) (hi : idxField v = idxField w)
    (hd : dataField v = dataField w) : v = w := by
  rw [← formatWord_fields v, ← formatWord_fields w, ho, hi, hd]

theorem opField_and (v w : Word) : opField (v &&& w) = opField v &&& opField w := by
  simp only [opField, BitVec.extractLsb'_and]

theorem idxField_and (v w : Word) : idxField (v &&& w) = idxField v &&& idxField w := by
  simp only [idxField, BitVec.extractLsb'_and]

theorem dataField_and (v w : Word) : dataField (v &&& w) = dataField v &&& dataField w := by
  simp only [dataField, BitVec.extractLsb'_and]

/-- Masking a word field by field. -/
theorem formatWord_and (a b c x y z : Byte) :
    formatWord a b c &&& formatWord x y z = formatWord (a &&& x) (b &&& y) (c &&& z) := by
  apply word_ext <;>
    simp only [opField_and, idxField_and, dataField_and, opField_formatWord, idxField_formatWord, dataField_formatWord]

/-- The seven outcomes of decoding, by the opcode field (30_encoding.md R47). -/
theorem decode_cases (w : Word) :
    ((opField w).toNat = 0 ∧ decode w = .ok .new) ∨
    ((opField w).toNat = 1 ∧ decode w = .ok .getRawBytes) ∨
    ((opField w).toNat = 2 ∧ decode w = .ok (.setByteValue (idxField w).toNat (dataField w))) ∨
    ((opField w).toNat = 3 ∧ decode w = .ok (.setBit (idxField w).toNat)) ∨
    ((opField w).toNat = 4 ∧ decode w = .ok (.clearBit (idxField w).toNat)) ∨
    ((opField w).toNat = 5 ∧ decode w = .ok .calculateChecksum) ∨
    (6 ≤ (opField w).toNat ∧ decode w = .error (.reservedOp (opField w))) := by
  unfold decode
  split <;> rename_i h <;> simp_all
  omega

/-- The fields of a word as arithmetic on its value (30_encoding.md R41). -/
theorem opField_toNat (w : Word) : (opField w).toNat = w.toNat / 65536 := by
  have := w.isLt
  simp [opField, Nat.shiftRight_eq_div_pow]
  omega

theorem idxField_toNat (w : Word) : (idxField w).toNat = w.toNat / 256 % 256 := by
  simp [idxField, Nat.shiftRight_eq_div_pow]

theorem dataField_eq (w : Word) : dataField w = BitVec.ofNat 8 (w.toNat % 256) := by
  apply BitVec.eq_of_toNat_eq
  simp [dataField]

/-- Every command's canonical word in format `C`. -/
theorem encode_eq_formatWord (i : Instr) : ∃ idx data, encode i = formatWord (opcode i) idx data := by
  cases i <;> exact ⟨_, _, rfl⟩

end Sys2Proof
end

