-- ==== Sys2Proof/Laws/Operands.lean ====
section
/-! SUPPORT. What the decoder, the mask generator, the multiplexers and the comparators compute. -/

namespace Sys2Proof.Machine

@[simp] theorem intraBytePosition_eq (bit : Nat) : intraBytePosition bit = bit % 8 := by
  simp only [intraBytePosition, byteIndexOf]; omega

@[simp] theorem shiftOf_eq (bit : Nat) : shiftOf bit = 7 - bit % 8 := by
  simp [shiftOf, shiftForPosition]

theorem byteIndexOf_lt {bit : Nat} (h : bit < 144) : byteIndexOf bit < 18 := by
  simp only [byteIndexOf]; omega

theorem bitOk_iff (idx : Nat) : bitOk idx = true ↔ idx < 144 := by simp [bitOk]
theorem byteOk_iff (idx : Nat) : byteOk idx = true ↔ idx < 18 := by simp [byteOk]
theorem bitOk_eq_false_iff (idx : Nat) : bitOk idx = false ↔ 144 ≤ idx := by simp [bitOk]
theorem byteOk_eq_false_iff (idx : Nat) : byteOk idx = false ↔ 18 ≤ idx := by simp [byteOk]

/-- The mask generator is one-hot. -/
theorem getLsbD_bitMask (shift k : Nat) : (bitMask shift).getLsbD k = decide (k < 8 ∧ k = shift) := by
  have h : bitMask shift = BitVec.twoPow 8 shift := by simp [bitMask, BitVec.twoPow]
  rw [h, BitVec.getLsbD_twoPow]
  by_cases e : shift = k <;> simp [e, eq_comm]

/-- `SET_BIT`'s multiplexer, bit by bit (40_datapath.md R66). -/
theorem getLsbD_rmwSet (shift k : Nat) (old : Byte) (hk : k < 8) :
    (rmwSet (bitMask shift) old).getLsbD k = (old.getLsbD k || decide (k = shift)) := by
  simp only [rmwSet, BitVec.getLsbD_or, getLsbD_bitMask, hk, true_and]

/-- `CLEAR_BIT`'s multiplexer, bit by bit (40_datapath.md R66). -/
theorem getLsbD_rmwClear (shift k : Nat) (old : Byte) (hk : k < 8) :
    (rmwClear (bitMask shift) old).getLsbD k = (old.getLsbD k && !decide (k = shift)) := by
  simp only [rmwClear, not8, BitVec.getLsbD_and, BitVec.getLsbD_not, getLsbD_bitMask, hk, true_and,
    decide_true, Bool.true_and]

@[simp] theorem byteWriteData_eq (data old : Byte) : byteWriteData data old = data := rfl

end Sys2Proof.Machine
end

