-- ==== Sys2Proof/Laws/State.lean ====
section
/-! SUPPORT. One lemma per field per state update. -/

namespace Sys2Proof.Machine

@[simp] theorem withPort_block (s : State) (p : List HostAction) : (s.withPort p).block = s.block := rfl
@[simp] theorem withPort_port (s : State) (p : List HostAction) : (s.withPort p).port = p := rfl
@[simp] theorem withPort_responses (s : State) (p : List HostAction) :
    (s.withPort p).responses = s.responses := rfl

@[simp] theorem withBlock_block (s : State) (b : Block) : (s.withBlock b).block = b := rfl
@[simp] theorem withBlock_port (s : State) (b : Block) : (s.withBlock b).port = s.port := rfl
@[simp] theorem withBlock_responses (s : State) (b : Block) : (s.withBlock b).responses = s.responses := rfl

@[simp] theorem answered_block (s : State) (r : Result) : (s.answered r).block = r.1 := rfl
@[simp] theorem answered_port (s : State) (r : Result) : (s.answered r).port = s.port := rfl
@[simp] theorem answered_responses (s : State) (r : Result) :
    (s.answered r).responses = s.responses ++ [r.2] := rfl

@[simp] theorem respond_block (st : Status) (p : Payload) (b : Block) : (respond st p b).1 = b := rfl
@[simp] theorem respond_response (st : Status) (p : Payload) (b : Block) : (respond st p b).2 = ⟨st, p⟩ := rfl

@[simp] theorem raise_block (e : Status) (b : Block) : (raise e b).1 = b := rfl
@[simp] theorem raise_response (e : Status) (b : Block) : (raise e b).2 = ⟨e, .none⟩ := rfl

@[simp] theorem hardwareReset_block (s : State) : (hardwareReset s).block = Block.reset := rfl
@[simp] theorem hardwareReset_port (s : State) : (hardwareReset s).port = s.port := rfl
@[simp] theorem hardwareReset_responses (s : State) : (hardwareReset s).responses = s.responses := rfl

@[simp] theorem blockReset_bytes : Block.reset.bytes = zeroCells := rfl
@[simp] theorem reset_block : State.reset.block = Block.reset := rfl
@[simp] theorem reset_port : State.reset.port = [] := rfl
@[simp] theorem reset_responses : State.reset.responses = [] := rfl

/-- The record is the whole state of the block. -/
theorem block_ext {b c : Block} (h : b.bytes = c.bytes) : b = c := by
  cases b; cases c; cases h; rfl

/-- Two runs with the same three fields are the same. -/
theorem state_ext {s t : State} (hb : s.block = t.block) (hp : s.port = t.port)
    (hr : s.responses = t.responses) : s = t := by
  cases s; cases t; cases hb; cases hp; cases hr; rfl

end Sys2Proof.Machine
end

