-- ==== Sys2Proof/Laws/Ops.lean ====
section
/-! SUPPORT. What each shared operation can do, said once. -/

namespace Sys2Proof.Machine

/-- Write select, cell by cell (40_datapath.md R70). -/
theorem writeSelect_cell (we : Bool) (sel : Nat) (wdata : Byte → Byte) (cells : Cells) (k : Nat) (hk : k < 18) :
    (writeSelect we sel wdata cells)[k] = if we = true ∧ k = sel then wdata cells[k] else cells[k] := by
  simp [writeSelect]

/-- Without the write enable nothing is written (40_datapath.md R69). -/
theorem writeSelect_disabled (sel : Nat) (wdata : Byte → Byte) (cells : Cells) :
    writeSelect false sel wdata cells = cells := by
  ext k hk : 1
  simp [writeSelect_cell]

theorem zeroCells_cell (k : Nat) (hk : k < 18) : zeroCells[k] = 0 := by simp [zeroCells]

/-- An indexed mutator whose check passes: the one write and the response `OK`. -/
theorem mutate_pass {err : Status} {we : Bool} {sel : Nat} {wdata : Byte → Byte} (b : Block) (h : we = true) :
    mutate err we sel wdata b = respond .ok .none ⟨writeSelect true sel wdata b.bytes⟩ := by
  subst h; rfl

/-- An indexed mutator whose check fails: the error response and nothing else. -/
theorem mutate_fail {err : Status} {we : Bool} {sel : Nat} {wdata : Byte → Byte} (b : Block) (h : we = false) :
    mutate err we sel wdata b = raise err b := by
  subst h; rfl

/-- All an indexed mutator does, in both cases at once: the write select's record, and a response without payload. -/
theorem mutate_eq (err : Status) (we : Bool) (sel : Nat) (wdata : Byte → Byte) (b : Block) :
    mutate err we sel wdata b = (⟨writeSelect we sel wdata b.bytes⟩, ⟨if we then .ok else err, .none⟩) := by
  cases we
  · simp [mutate_fail, raise, respond, writeSelect_disabled]
  · rfl

theorem unpackCells_cell (r : RData) (k : Nat) (hk : k < 18) :
    (unpackCells r)[k] = r.extractLsb' (136 - 8 * k) 8 := by
  simp [unpackCells]

end Sys2Proof.Machine
end

