-- ==== Sys2Proof/Laws/PerInstr.lean ====
section
/-! SUPPORT. Per command: the canonical word of every command carries the opcode and the `match` bits of its own row of
the opcode table (30_encoding.md R42), and no bit outside the fields the command uses (R44). -/

namespace Sys2Proof.Laws.RowOfWord

/-- The canonical word stands in the command's own row and is zero outside the fields the command uses. -/
def Statement (i : Instr) : Prop :=
  opField (encode i) = opcode i ∧ encode i &&& rowMask = rowMatch i ∧ encode i &&& ~~~ usedBits i = 0

theorem new : Statement .new := ⟨by decide, by decide, by decide⟩

theorem getRawBytes : Statement .getRawBytes := ⟨by decide, by decide, by decide⟩

theorem setByteValue (idx : Nat) (data : Byte) : Statement (.setByteValue idx data) := by
  refine ⟨opField_formatWord _ _ _, ?_, ?_⟩
  · rw [encode, show rowMask = formatWord 0xFF 0 0 by decide, formatWord_and]
    simp [opcode, rowMatch, formatWord]
  · rw [encode, show ~~~ usedBits (.setByteValue idx data) = formatWord 0 0 0 from by simp only [usedBits]; decide, formatWord_and]
    simp [formatWord]

theorem setBit (idx : Nat) : Statement (.setBit idx) := by
  refine ⟨opField_formatWord _ _ _, ?_, ?_⟩
  · rw [encode, show rowMask = formatWord 0xFF 0 0 by decide, formatWord_and]
    simp [opcode, rowMatch, formatWord]
  · rw [encode, show ~~~ usedBits (.setBit idx) = formatWord 0 0 0xFF from by simp only [usedBits]; decide, formatWord_and]
    simp [formatWord]

theorem clearBit (idx : Nat) : Statement (.clearBit idx) := by
  refine ⟨opField_formatWord _ _ _, ?_, ?_⟩
  · rw [encode, show rowMask = formatWord 0xFF 0 0 by decide, formatWord_and]
    simp [opcode, rowMatch, formatWord]
  · rw [encode, show ~~~ usedBits (.clearBit idx) = formatWord 0 0 0xFF from by simp only [usedBits]; decide, formatWord_and]
    simp [formatWord]

theorem calculateChecksum : Statement .calculateChecksum := ⟨by decide, by decide, by decide⟩

end Sys2Proof.Laws.RowOfWord
end

