-- ==== Sys2Proof/Laws/Record.lean ====
section
/-! SUPPORT. The record as a list, as a sum and as one 144-bit value. -/

namespace Sys2Proof.Machine

/-- The 18 cells in order. -/
theorem cells_toList (cells : Cells) : cells.toList =
    [cells[0], cells[1], cells[2], cells[3], cells[4], cells[5], cells[6], cells[7], cells[8], cells[9], cells[10],
      cells[11], cells[12], cells[13], cells[14], cells[15], cells[16], cells[17]] := by
  apply List.ext_getElem
  · simp
  · intro k h₁ h₂
    simp only [Vector.length_toList] at h₁
    interval_cases k <;> simp

/-- The summed region, cell by cell (20_memory.md R27). -/
theorem summedCells_eq (cells : Cells) : summedCells cells =
    [cells[0], cells[1], cells[2], cells[3], cells[4], cells[5], cells[6], cells[7], cells[8], cells[9], cells[10],
      cells[11], cells[12], cells[13], cells[14], cells[15], cells[16]] := by
  simp [summedCells, cells_toList]

/-- The value of the checksum as a number. -/
theorem checksum_toNat (cells : Cells) : (checksum cells).toNat = checksumSum cells % 256 := by
  simp [checksum]

/-- Bit `8 * q + r` of a byte placed at bit `8 * m` of the packed record: it is bit `r` of the byte when `q` is `m`. -/
theorem placedByte_bit (x : Byte) (n m q r : Nat) (hn : n = 8 * m) (hq : q < 18) (hr : r < 8) :
    (x.setWidth 144 <<< n).getLsbD (8 * q + r) = (decide (q = m) && x.getLsbD r) := by
  subst hn
  simp only [BitVec.getLsbD_shiftLeft, BitVec.getLsbD_setWidth]
  rcases Nat.lt_trichotomy q m with h | h | h
  · simp [show 8 * q + r < 8 * m by omega, show ¬q = m by omega]
  · subst h
    simp [show 8 * q + r < 144 by omega, show r < 144 by omega]
  · simp [BitVec.getLsbD_of_ge x (8 * q + r - 8 * m) (by omega), show ¬q = m by omega]

/-- Bit `r` of cell `17 - q` stands at bit `8 * q + r` of the packed record (20_memory.md R24). -/
theorem packCells_bit (cells : Cells) (q r : Nat) (hq : q < 18) (hr : r < 8) :
    (packCells cells).getLsbD (8 * q + r) = (cells[17 - q]).getLsbD r := by
  have last : (cells[17].setWidth 144).getLsbD (8 * q + r) =
      (cells[17].setWidth 144 <<< 0).getLsbD (8 * q + r) := by simp
  simp only [packCells, BitVec.getLsbD_or, last]
  rw [placedByte_bit _ 136 17 q r rfl hq hr, placedByte_bit _ 128 16 q r rfl hq hr, placedByte_bit _ 120 15 q r rfl hq
    hr, placedByte_bit _ 112 14 q r rfl hq hr, placedByte_bit _ 104 13 q r rfl hq hr, placedByte_bit _ 96 12 q r rfl
    hq hr, placedByte_bit _ 88 11 q r rfl hq hr, placedByte_bit _ 80 10 q r rfl hq hr, placedByte_bit _ 72 9 q r rfl
    hq hr, placedByte_bit _ 64 8 q r rfl hq hr, placedByte_bit _ 56 7 q r rfl hq hr, placedByte_bit _ 48 6 q r rfl
    hq hr, placedByte_bit _ 40 5 q r rfl hq hr, placedByte_bit _ 32 4 q r rfl hq hr, placedByte_bit _ 24 3 q r rfl
    hq hr, placedByte_bit _ 16 2 q r rfl hq hr, placedByte_bit _ 8 1 q r rfl hq hr, placedByte_bit _ 0 0 q r rfl hq
    hr]
  clear last
  interval_cases q <;> simp

end Sys2Proof.Machine
end

