-- ==== Sys2Proof/Laws/Step.lean ====
section
/-! SUPPORT. The meanings in one line each, and what one step can do. -/

namespace Sys2Proof.Machine

/-- A command in a run is that command on the block: the block alone and the command decide the new block and the
response. Every statement about `exec` follows from one about `blockExec`. -/
theorem exec_eq (i : Instr) (s : State) : exec i s = .next (s.answered (blockExec i s.block)) := by
  cases i <;> rfl

theorem blockExec_new (b : Block) : blockExec .new b = (⟨zeroCells⟩, ⟨.ok, .none⟩) := rfl
theorem blockExec_getRawBytes (b : Block) :
    blockExec .getRawBytes b = (b, ⟨.ok, .bytes (packCells b.bytes)⟩) := rfl
theorem blockExec_setByteValue (idx : Nat) (data : Byte) (b : Block) :
    blockExec (.setByteValue idx data) b = mutate .byteOutOfBounds (byteOk idx) idx (byteWriteData data) b := rfl
theorem blockExec_setBit (idx : Nat) (b : Block) :
    blockExec (.setBit idx) b =
      mutate .bitOutOfBounds (bitOk idx) (byteIndexOf idx) (rmwSet (maskOf idx)) b := rfl
theorem blockExec_clearBit (idx : Nat) (b : Block) :
    blockExec (.clearBit idx) b =
      mutate .bitOutOfBounds (bitOk idx) (byteIndexOf idx) (rmwClear (maskOf idx)) b := rfl
theorem blockExec_calculateChecksum (b : Block) :
    blockExec .calculateChecksum b = (b, ⟨.ok, .sum (checksum b.bytes)⟩) := rfl

theorem blockReserved_eq (b : Block) : blockReserved b = (b, ⟨.illegalOp, .none⟩) := rfl

/-- The response of a command is never `IllegalOp` and agrees with its status. -/
theorem blockExec_response (i : Instr) (b : Block) :
    (blockExec i b).2.status ≠ .illegalOp ∧ responseWf (blockExec i b).2 = true := by
  have indexed (err : Status) (he : err ≠ .illegalOp) (we : Bool) (sel : Nat) (f : Byte → Byte) :
      (mutate err we sel f b).2.status ≠ .illegalOp ∧ responseWf (mutate err we sel f b).2 = true := by
    rw [mutate_eq]
    cases we
    · exact ⟨he, by cases err <;> rfl⟩
    · exact ⟨Status.noConfusion, rfl⟩
  cases i with
  | new => exact ⟨Status.noConfusion, rfl⟩
  | getRawBytes => exact ⟨Status.noConfusion, rfl⟩
  | setByteValue idx data => exact indexed _ Status.noConfusion _ _ _
  | setBit idx => exact indexed _ Status.noConfusion _ _ _
  | clearBit idx => exact indexed _ Status.noConfusion _ _ _
  | calculateChecksum => exact ⟨Status.noConfusion, rfl⟩

theorem step_empty {s : State} (h : s.port = []) : step s = .next s := by
  simp [step, portStep, h]

theorem step_reset {s : State} {rest : List HostAction} (h : s.port = .reset :: rest) :
    step s = .next (hardwareReset (s.withPort rest)) := by
  simp [step, portStep, h, takeAction]

theorem step_command {s : State} {w : Word} {rest : List HostAction} (h : s.port = .command w :: rest) :
    step s = runCommand w (s.withPort rest) := by
  simp [step, portStep, h, takeAction]

/-- The two things a command word can do to the block. -/
theorem blockStep_cases (w : Word) (b : Block) :
    (∃ i, decode w = .ok i ∧ blockStep w b = blockExec i b) ∨
    (∃ op, decode w = .error (.reservedOp op) ∧ blockStep w b = (b, ⟨.illegalOp, .none⟩)) := by
  cases h : decode w with
  | ok i => exact .inl ⟨i, rfl, by simp [blockStep, h]⟩
  | error e => cases e with
    | reservedOp op => exact .inr ⟨op, rfl, by simp [blockStep, h, blockReserved_eq]⟩

/-- A command word in a run that names a command, and one that names none. -/
theorem runCommand_ok {w : Word} {i : Instr} (s : State) (h : decode w = .ok i) : runCommand w s = exec i s := by
  simp [runCommand, h]

theorem runCommand_reserved {w : Word} {op : Byte} (s : State) (h : decode w = .error (.reservedOp op)) :
    runCommand w s = .next (s.answered (blockReserved s.block)) := by
  simp [runCommand, h]

/-- All a command word does in a run, said once: the block's step on it. -/
theorem runCommand_eq (w : Word) (s : State) : runCommand w s = .next (s.answered (blockStep w s.block)) := by
  rcases h : decode w with e | i
  · cases e
    rw [runCommand_reserved s h]
    simp [blockStep, h]
  · rw [runCommand_ok s h, exec_eq]
    simp [blockStep, h]

/-- A placed command word is what the next step runs. -/
theorem step_presentWord (w : Word) (s : State) : step (presentWord w s) = runCommand w s :=
  step_command (s := presentWord w s) (rest := s.port) rfl

/-- One step of a run on the machine behind the host's interface. -/
theorem run_succ (n : Nat) (s t : State) (h : step s = .next t) :
    Host.Core.run Sys2Proof.core (n + 1) s = Host.Core.run Sys2Proof.core n t := by
  have h' : Sys2Proof.core.step s = .next t := h
  simp only [Host.Core.run, h']

end Sys2Proof.Machine
end

