-- ==== Sys2Proof/Tests/Slice0.lean ====
section
/-! SUPPORT. Tests: expected results are the vectors of spec/95_test_vectors.md and the words of 30_encoding.md section 7, each
named in its comment. Below them, a witness for the hypotheses of each statement that has any. -/

namespace Sys2Proof.Tests

open Sys2Proof Sys2Proof.Machine

/-- The next state of an outcome. -/
def after (o : Outcome) : Option State :=
  match o with
  | .next t => some t
  | .fault _ => none
  | .refused _ => none

/-- A machine with this record, nothing pending and nothing answered. -/
def withRecord (cells : Cells) : State := ⟨⟨cells⟩, [], []⟩

/-- `ZERO` with one named cell. -/
def oneCell (k : Fin 18) (v : Byte) : State := withRecord (zeroCells.set k v)

/-- `ALLFF`. -/
def allFF : State := withRecord (Vector.replicate 18 0xFF)

/-- Cells 0x01, 0x02, ..., 0x12. -/
def counting : State :=
  withRecord #v[0x01, 0x02, 0x03, 0x04, 0x05, 0x06, 0x07, 0x08, 0x09, 0x0A, 0x0B, 0x0C, 0x0D, 0x0E, 0x0F, 0x10, 0x11, 0x12]

/-- Record and responses after the step that runs the command word `w`. -/
def afterWord (w : Word) (s : State) : Option (Cells × List Response) :=
  (after (step (presentWord w s))).map fun t => (t.block.bytes, t.responses)

/-! ### Well-formedness: each check refuses an ill-formed term -/

theorem test_wf_setByteValue_refuses : (Instr.setByteValue 256 0).wf = false := by decide
theorem test_wf_setBit_refuses : (Instr.setBit 256).wf = false := by decide
theorem test_wf_clearBit_refuses : (Instr.clearBit 256).wf = false := by decide
theorem test_wf_accepts_out_of_range_index : (Instr.setBit 144).wf = true := by decide

/-! ### Decoding: words written out bit by bit from R41 and R42 (op, idx, data) -/

theorem test_decode_new : decode 0b000000001111111111111111 = .ok .new := by rfl
theorem test_decode_getRawBytes : decode 0b000000010000000000000000 = .ok .getRawBytes := by rfl
theorem test_decode_setByteValue : decode 0b000000100001000111111111 = .ok (.setByteValue 17 0xFF) := by rfl
theorem test_decode_setBit : decode 0b000000110111111110101011 = .ok (.setBit 127) := by rfl
theorem test_decode_clearBit : decode 0b000001000111100000000000 = .ok (.clearBit 120) := by rfl
theorem test_decode_checksum : decode 0b000001011010101111001101 = .ok .calculateChecksum := by rfl
theorem test_decode_first_reserved : decode 0b000001100000000000000000 = .error (.reservedOp 0x06) := by rfl
theorem test_decode_last_reserved : decode 0b111111111111111111111111 = .error (.reservedOp 0xFF) := by rfl
theorem test_encode_setByteValue : encode (.setByteValue 2 0x0F) = 0x02020F := by decide
theorem test_encode_clearBit : encode (.clearBit 127) = 0x047F00 := by decide
theorem test_tableWord_setBit : decodeTableWord 24 0x037F00 = some (.setBit 127) := by decide
theorem test_tableWord_reserved : decodeTableWord 24 0x060000 = none := by decide
theorem test_config : Config.nbits = 144 ∧ Config.cmdW = 24 := by decide

/-! ### Datapath: the table of 95_test_vectors.md section 2.1 -/

theorem test_decoder_19 : byteIndexOf 19 = 2 ∧ intraBytePosition 19 = 3 ∧ shiftOf 19 = 4 ∧ maskOf 19 = 0x10 := by decide
theorem test_comparators_18 : bitOk 18 = true ∧ byteOk 18 = false ∧ bitOk 144 = false := by decide
theorem test_clear_mask_121 : not8 (maskOf 121) = 0xBF := by decide

/-! ### The commands -/

/-- V-NEW-3. -/
theorem test_new_from_allFF : afterWord 0x00FFFF allFF = some (zeroCells, [⟨.ok, .none⟩]) := by decide
/-- V-NEW-4. -/
theorem test_new_from_counting : afterWord 0x000000 counting = some (zeroCells, [⟨.ok, .none⟩]) := by decide
/-- V-GRB-2. -/
theorem test_raw_counting : afterWord 0x010000 counting =
    some (counting.block.bytes, [⟨.ok, .bytes 0x0102030405060708090A0B0C0D0E0F101112⟩]) := by decide
/-- V-GRB-5. -/
theorem test_raw_cell15 : afterWord 0x010000 (oneCell 15 0x81) =
    some ((oneCell 15 0x81).block.bytes, [⟨.ok, .bytes 0x000000000000000000000000000000810000⟩]) := by decide
/-- V-BW-2. -/
theorem test_byte_write_replaces : afterWord 0x02020F (oneCell 2 0xF0) =
    some ((oneCell 2 0x0F).block.bytes, [⟨.ok, .none⟩]) := by decide
/-- V-BW-5. -/
theorem test_byte_write_32_fails : afterWord 0x022000 allFF =
    some (allFF.block.bytes, [⟨.byteOutOfBounds, .none⟩]) := by decide
/-- V-SB-5. -/
theorem test_set_bit_keeps_neighbours : afterWord 0x034000 (oneCell 8 0x55) =
    some ((oneCell 8 0xD5).block.bytes, [⟨.ok, .none⟩]) := by decide
/-- V-SB-8. -/
theorem test_set_bit_144_fails : afterWord 0x039000 State.reset =
    some (zeroCells, [⟨.bitOutOfBounds, .none⟩]) := by decide
/-- V-CB-5: tells the forbidden mask apart. -/
theorem test_clear_bit_120 : afterWord 0x047800 (oneCell 15 0x81) =
    some ((oneCell 15 0x01).block.bytes, [⟨.ok, .none⟩]) := by decide
/-- V-CB-7: tells the forbidden mask apart. -/
theorem test_clear_bit_27 : afterWord 0x041B00 (oneCell 3 0xFF) =
    some ((oneCell 3 0xEF).block.bytes, [⟨.ok, .none⟩]) := by decide
/-- V-CS-6. -/
theorem test_checksum_allFF : afterWord 0x050000 allFF = some (allFF.block.bytes, [⟨.ok, .sum 0xEF⟩]) := by decide
/-- V-CS-8. -/
theorem test_checksum_counting : afterWord 0x05ABCD counting =
    some (counting.block.bytes, [⟨.ok, .sum 0x99⟩]) := by decide
/-- V-ILL-3. -/
theorem test_reserved_word : afterWord 0x077F00 State.reset = some (zeroCells, [⟨.illegalOp, .none⟩]) := by decide
/-- S8, first command: the first step after reset runs the placed word. -/
theorem test_first_step_after_reset : after (step (State.reset.withFetchWord 24 0x037F00)) =
    some ⟨(oneCell 15 0x01).block, [], [⟨.ok, .none⟩]⟩ := by decide
/-- P6 step 3: reset between commands, without a response. -/
theorem test_host_reset : after (step { oneCell 9 0xA5 with port := [.reset, .command 0x050000] }) =
    some ⟨⟨zeroCells⟩, [.command 0x050000], []⟩ := by decide
/-- The adder of 8 bits on V-CS-4. -/
theorem test_accumulate_8 : accumulate 8 allFF.block.bytes = 0xEF := by decide
/-- 95_test_vectors.md section 2.10: the checksum response (OK, 0x32) with its other bits at any value. -/
theorem test_response_word : allowsWord ⟨.ok, .sum 0x32⟩ 0xABCDEF0000000000000000000000000032 = true ∧
    allowsWord ⟨.byteOutOfBounds, .none⟩ 0xABCDEF0000000000000000000000000032 = false := by decide

/-! ### The assembler: lines of 30_encoding.md sections 6 and 7 -/

theorem test_assemble_setByteValue : assembleWord
    ['S', 'E', 'T', '_', 'B', 'Y', 'T', 'E', '_', 'V', 'A', 'L', 'U', 'E', ' ', '2', ',', ' ', '0', 'x', '0', 'F'] =
    some 0x02020F := by decide
theorem test_assemble_source_spelling : assembleWord
    ['s', 'e', 't', '_', 'b', 'i', 't', '(', '0', 'b', '0', '1', '1', '1', '1', '1', '1', '1', ')', ' ', '-', '-', 'x'] =
    some 0x037F00 := by decide
theorem test_assemble_operand_too_large : assembleWord
    ['S', 'E', 'T', '_', 'B', 'I', 'T', ' ', '2', '5', '6'] = none := by decide

/-! ### Witnesses: a concrete input that meets the hypotheses of each statement -/

/-- The reset machine with one command pending. -/
def pending (w : Word) : State := { State.reset with port := [.command w] }

theorem witness_wf : (Instr.setBit 255).wf = true ∧ (Instr.setByteValue 255 0xFF).wf = true ∧ (Instr.clearBit 0).wf = true ∧
    Instr.new.wf = true := by decide
theorem witness_decode : decode 0x02FF01 = .ok (.setByteValue 255 0x01) := by rfl
theorem witness_reserved_opcode : 6 ≤ (0x060000 : Word).toNat / 65536 ∧ 6 ≤ (0xFFFFFF : Word).toNat / 65536 := by decide
theorem witness_unused_fields : opField 0x00FFFF = opField 0x000000 ∧ (opField 0x00FFFF).toNat = 0 ∧
    opField 0x037FAB = opField 0x037F00 ∧ (opField 0x037FAB).toNat = 3 ∧ idxField 0x037FAB = idxField 0x037F00 := by
  decide
theorem witness_step_runs : (pending 0x037F00).port = .command 0x037F00 :: [] ∧ decode 0x037F00 = .ok (.setBit 127) :=
  ⟨rfl, rfl⟩
theorem witness_placed_word : decodeTableWord 24 0x0212AA = some (.setByteValue 18 0xAA) := by decide
theorem witness_empty_port : State.reset.port = [] := rfl
theorem witness_reserved_pending : (pending 0x060000).port = [.command 0x060000] ∧
    6 ≤ (opField 0x060000).toNat := by decide
theorem witness_reset_pending : { allFF with port := [.reset] }.port = .reset :: [] := rfl
theorem witness_step_next : step (pending 0x010000) = .next ⟨⟨zeroCells⟩, [], [⟨.ok, .bytes 0⟩]⟩ ∧
    responsesWf (pending 0x010000) := ⟨rfl, fun _ h => nomatch h⟩
theorem witness_same_record : (pending 0x050000).block.bytes = { pending 0x050000 with responses := [⟨.ok, .none⟩] }.block.bytes := rfl
theorem witness_record_changes : ∃ t, step (pending 0x038F00) = .next t ∧ t.block.bytes ≠ (pending 0x038F00).block.bytes :=
  ⟨_, rfl, by decide⟩
theorem witness_record_changes_by_reset : ∃ t, step { allFF with port := [.reset] } = .next t ∧ t.block.bytes ≠ allFF.block.bytes :=
  ⟨_, rfl, by decide⟩
theorem witness_response_appended : ∃ t, exec (.setBit 144) State.reset = .next t ∧
    t.responses = State.reset.responses ++ [⟨.bitOutOfBounds, .none⟩] := ⟨_, rfl, rfl⟩
theorem witness_byte_response_appended : ∃ t, exec (.setByteValue 18 0xAA) State.reset = .next t ∧
    t.responses = State.reset.responses ++ [⟨.byteOutOfBounds, .none⟩] := ⟨_, rfl, rfl⟩
theorem witness_out_of_range : 144 ≤ 144 ∧ 144 ≤ 255 ∧ 18 ≤ 18 ∧ 18 ≤ 255 := by decide
theorem witness_failed_command : ∃ t, step (pending 0x049000) = .next t ∧
    t.responses = (pending 0x049000).responses ++ [⟨.bitOutOfBounds, .none⟩] ∧ Status.bitOutOfBounds ≠ .ok :=
  ⟨_, rfl, rfl, by decide⟩
theorem witness_failing_words : failingWord 0x039000 ∧ failingWord 0x04FF00 ∧ failingWord 0x021200 ∧ failingWord 0x060000 := by
  unfold failingWord; decide
theorem witness_failing_run : ∀ a ∈ { allFF with port := [.command 0x039000, .command 0x04FF00] }.port,
    ∃ w, a = .command w ∧ failingWord w := by
  simp only [List.mem_cons, List.not_mem_nil, or_false, failingWord]
  rintro a (rfl | rfl)
  · exact ⟨0x039000, rfl, by decide⟩
  · exact ⟨0x04FF00, rfl, by decide⟩
theorem witness_new_record : (pending 0x037800).block.bytes = State.reset.block.bytes := rfl
theorem witness_in_range : 17 < 18 ∧ 0 < 18 ∧ 143 < 144 ∧ 0 < 144 := by decide
theorem witness_mutators : mutatorInRange .new ∧ mutatorInRange (.setByteValue 17 0) ∧ mutatorInRange (.setBit 143) ∧
    mutatorInRange (.clearBit 0) := by simp [mutatorInRange]
theorem witness_exec_next : (∃ t, exec .getRawBytes counting = .next t) ∧ (∃ t, exec .calculateChecksum counting = .next t) ∧
    (∃ t, exec (.setByteValue 17 0x80) counting = .next t) ∧ (∃ t, exec (.clearBit 143) counting = .next t) :=
  ⟨⟨_, rfl⟩, ⟨_, rfl⟩, ⟨_, rfl⟩, ⟨_, rfl⟩⟩
theorem witness_dependence : (∀ k : Fin 17, (oneCell 17 0xFF).block.bytes[k.val] = State.reset.block.bytes[k.val]) ∧
    (oneCell 0 0x19).block.bytes[17] = State.reset.block.bytes[17] := by decide
/-- The last cell alone tells two payloads apart, and no checksum. -/
theorem witness_results : ∃ s' u' t', exec .getRawBytes State.reset = .next s' ∧ s'.responses = [⟨.ok, .bytes 0⟩] ∧
    exec .getRawBytes (oneCell 17 0xFF) = .next u' ∧ u'.responses = [⟨.ok, .bytes 0xFF⟩] ∧
    exec .calculateChecksum (oneCell 17 0xFF) = .next t' ∧ t'.responses = [⟨.ok, .sum 0⟩] :=
  ⟨_, _, _, rfl, rfl, rfl, rfl, rfl, rfl⟩
theorem witness_packed : packCells (oneCell 16 0xA5).block.bytes = 0xA500 ∧ 18 ≤ 18 ∧ 17 < 18 ∧ 143 < 144 ∧ 144 ≤ 144 ∧
    6 ≤ (opField 0x060000).toNat := by decide
theorem witness_words_pending : { State.reset with port := [.command 0x037800, .command 0x060000] }.port =
    [0x037800, 0x060000].map .command := rfl
/-- The first command of R92, a reserved word (V-ILL-1) and a closing `GET_RAW_BYTES` (R141), as one run of the block; by hand. -/
theorem test_block_run : (blockRun [0x037800, 0x060000, 0x010000] Block.reset).2 =
    [⟨.ok, .none⟩, ⟨.illegalOp, .none⟩, ⟨.ok, .bytes 0x000000000000000000000000000000800000⟩] := by decide
theorem witness_raw_response : ∃ t, exec .getRawBytes (oneCell 15 0x81) = .next t ∧
    t.responses = (oneCell 15 0x81).responses ++ [⟨.ok, .bytes 0x810000⟩] := ⟨_, rfl, rfl⟩
theorem witness_storage_bit : byteIndexOf 120 = byteIndexOf 120 ∧ shiftOf 120 = 7 ∧ (120 : Fin 144) ≠ 127 := by decide
theorem witness_byte_write_bits : (143 : Fin 144).val = 8 * (17 : Fin 18).val + (7 : Fin 8).val ∧
    (135 : Fin 144).val / 8 ≠ (17 : Fin 18).val := by decide
theorem witness_adder_widths : 8 ≤ 8 ∧ 13 ≤ 13 := by decide
theorem witness_swapped_cells : (oneCell 0 0x19).block.bytes[0] = (oneCell 16 0x19).block.bytes[16] ∧
    (oneCell 0 0x19).block.bytes[16] = (oneCell 16 0x19).block.bytes[0] ∧
    ∀ k : Fin 17, k ≠ 0 → k ≠ 16 → (oneCell 0 0x19).block.bytes[k.val] = (oneCell 16 0x19).block.bytes[k.val] := by decide
theorem witness_checksum_clauses : bitOf State.reset.block.bytes 135 = false ∧ bitOf allFF.block.bytes 135 = true ∧
    bitOf State.reset.block.bytes 136 = false ∧ (16 : Fin 18).val < 17 ∧ (17 : Fin 18).val = 17 := by decide
theorem witness_allowed_word : allowsWord ⟨.ok, .bytes 0⟩ 0 = true ∧ allowsWord ⟨.ok, .sum 0⟩ 0 = true ∧
    allowsWord ⟨.ok, .none⟩ 5 = true := by decide
theorem witness_same_command_word : ∃ s' u', runCommand 0x050000 State.reset = .next s' ∧
    s'.responses = State.reset.responses ++ [⟨.ok, .sum 0⟩] ∧ runCommand 0x050000 (oneCell 17 0xFF) = .next u' ∧
    u'.responses = (oneCell 17 0xFF).responses ++ [⟨.ok, .sum 0⟩] ∧
    allowsWord ⟨.ok, .sum 0⟩ 0xFF00 = true := ⟨_, _, rfl, rfl, rfl, rfl, by decide⟩

end Sys2Proof.Tests
end

/-! The scope of a step (00_scope.md): the command at the port runs, and the block and the word alone decide what it
does. -/

namespace Sys2Proof.Machine

/-- A step on a command word, field by field: the block's own step on the word gives the new block and the one new
response; the rest of the port and the earlier responses are carried along (R7, R12). -/
theorem step_command_fields {s : State} {w : Word} {rest : List HostAction} (h : s.port = .command w :: rest) :
    step s = .next ⟨(blockStep w s.block).1, rest, s.responses ++ [(blockStep w s.block).2]⟩ := by
  rw [step_command h, runCommand_eq]
  rfl

/-- Settles O8: the word is taken off the port, and a word that decodes runs its command. -/
theorem stepRunsTheDecodedCommand : Obligations.StepRunsTheDecodedCommand := by
  intro s w rest i hport hdecode
  calc step s = runCommand w (s.withPort rest) := step_command hport
    _ = exec i (s.withPort rest) := runCommand_ok _ hdecode

/-- Settles O19: both runs make the block's step on the same word and the same block. -/
theorem stepDependsOnRecordAndCommandOnly : Obligations.StepDependsOnRecordAndCommandOnly := by
  intro s u w rs ru hblock hs hu
  have hstep : step u = .next ⟨(blockStep w s.block).1, ru, u.responses ++ [(blockStep w s.block).2]⟩ := by
    rw [hblock]
    exact step_command_fields hu
  exact ⟨_, _, step_command_fields hs, hstep⟩

end Sys2Proof.Machine

/-! The state (10_state.md): the record after reset, and which cells a command reads and which it writes (R16, R17, R19). -/

namespace Sys2Proof.Machine

/-- The state a command leaves. -/
theorem eq_answered_of_exec {i : Instr} {s t : State} (h : exec i s = .next t) :
    t = s.answered (blockExec i s.block) := by
  rw [exec_eq] at h
  exact (Host.Outcome.next.inj h).symm

/-- The block a command leaves and the response it adds, both read off `blockExec`. -/
theorem block_and_response_of_exec {i : Instr} {s t : State} {r : Response} (h : exec i s = .next t)
    (hr : t.responses = s.responses ++ [r]) : t.block = (blockExec i s.block).1 ∧ r = (blockExec i s.block).2 := by
  obtain rfl := eq_answered_of_exec h
  simpa using hr.symm

/-! ### The indexed mutators, cell by cell -/

/-- One cell after an indexed mutator. -/
theorem mutate_cell (err : Status) (we : Bool) (sel : Nat) (f : Byte → Byte) (b : Block) (k : Fin 18) :
    (mutate err we sel f b).1.bytes[k] = if we = true ∧ k.val = sel then f b.bytes[k] else b.bytes[k] := by
  rw [mutate_eq]
  exact writeSelect_cell we sel f b.bytes k k.isLt

/-- An indexed mutator writes no cell but the selected one. -/
theorem mutate_other_cell (err : Status) (we : Bool) (sel : Nat) (f : Byte → Byte) (b : Block) (k : Fin 18)
    (h : k.val ≠ sel) : (mutate err we sel f b).1.bytes[k] = b.bytes[k] := by
  rw [mutate_cell, if_neg fun selected => h selected.2]

/-- An indexed mutator computes each cell from that cell alone. -/
theorem mutate_cell_congr (err : Status) (we : Bool) (sel : Nat) (f : Byte → Byte) {b c : Block} {k : Fin 18}
    (h : b.bytes[k] = c.bytes[k]) : (mutate err we sel f b).1.bytes[k] = (mutate err we sel f c).1.bytes[k] := by
  simp only [mutate_cell, h]

/-- The response of an indexed mutator does not depend on the record. -/
theorem mutate_response_const (err : Status) (we : Bool) (sel : Nat) (f : Byte → Byte) (b c : Block) :
    (mutate err we sel f b).2 = (mutate err we sel f c).2 := by
  rw [mutate_eq, mutate_eq]

/-- Two runs of an indexed mutator answer the same, and leave a cell the same where it was the same (R17). -/
theorem indexed_results_agree {i : Instr} {err : Status} {we : Bool} {sel : Nat} {f : Byte → Byte}
    {s u s' u' : State} {r r' : Response} (hi : blockExec i = mutate err we sel f)
    (hs : exec i s = .next s') (hr : s'.responses = s.responses ++ [r])
    (hu : exec i u = .next u') (hr' : u'.responses = u.responses ++ [r']) :
    r = r' ∧ ∀ k : Fin 18, s.block.bytes[k] = u.block.bytes[k] → s'.block.bytes[k] = u'.block.bytes[k] := by
  obtain ⟨hb, rfl⟩ := block_and_response_of_exec hs hr
  obtain ⟨hb', rfl⟩ := block_and_response_of_exec hu hr'
  rw [hb, hb', hi]
  exact ⟨mutate_response_const _ _ _ _ _ _, fun k => mutate_cell_congr _ _ _ _⟩

/-- `SET_BYTE_VALUE` leaves in the cell it addresses the data operand. -/
theorem setByteValue_cell (idx : Nat) (data : Byte) (b : Block) (k : Fin 18) (h : k.val = idx) :
    (blockExec (.setByteValue idx data) b).1.bytes[k] = data := by
  have inRange : byteOk idx = true := (byteOk_iff idx).mpr (h ▸ k.isLt)
  rw [blockExec_setByteValue, mutate_cell, if_pos ⟨inRange, h⟩, byteWriteData_eq]

/-- A command other than a mutator with its index in range leaves the block as it is (R19). -/
theorem blockExec_block_of_not_mutatorInRange {i : Instr} (h : ¬ mutatorInRange i) (b : Block) :
    (blockExec i b).1 = b := by
  cases i with
  | new => exact absurd trivial h
  | getRawBytes => rfl
  | setByteValue idx data =>
    rw [blockExec_setByteValue, mutate_fail b ((byteOk_eq_false_iff idx).mpr (Nat.le_of_not_lt h)), raise_block]
  | setBit idx =>
    rw [blockExec_setBit, mutate_fail b ((bitOk_eq_false_iff idx).mpr (Nat.le_of_not_lt h)), raise_block]
  | clearBit idx =>
    rw [blockExec_clearBit, mutate_fail b ((bitOk_eq_false_iff idx).mpr (Nat.le_of_not_lt h)), raise_block]
  | calculateChecksum => rfl

/-- A word that changes the block names a mutator with its index in range (R19). -/
theorem mutatorInRange_of_blockStep_ne {w : Word} {b : Block} (h : (blockStep w b).1 ≠ b) :
    ∃ i, decode w = .ok i ∧ mutatorInRange i := by
  obtain ⟨i, hdecode, hstep⟩ | ⟨_, _, hstep⟩ := blockStep_cases w b
  · rw [hstep] at h
    exact ⟨i, hdecode, not_not.mp fun hi => h (blockExec_block_of_not_mutatorInRange hi b)⟩
  · rw [hstep] at h
    exact absurd rfl h

/-! ### The cells a response reads -/

/-- The packed record holds every cell in its slice (20_memory.md R24). -/
theorem unpackCells_packCells (cells : Cells) : unpackCells (packCells cells) = cells := by
  ext k hk r hr
  have place : 136 - 8 * k + r = 8 * (17 - k) + r := by omega
  have cell : 17 - (17 - k) = k := by omega
  simp only [unpackCells_cell, BitVec.getElem_extractLsb', place, packCells_bit cells (17 - k) r (by omega) hr, cell,
    BitVec.getLsbD_eq_getElem hr]

/-- Two records pack to the same value exactly when every cell is the same. -/
theorem packCells_eq_iff (x y : Cells) : packCells x = packCells y ↔ ∀ k : Fin 18, x[k] = y[k] := by
  constructor
  · intro h k
    rw [← unpackCells_packCells x, h, unpackCells_packCells]
  · intro h
    rw [Vector.ext fun k hk => h ⟨k, hk⟩]

/-- The checksum reads cells 0 to 16 only (44_checksum.md R100). -/
theorem checksum_congr {x y : Cells} (h : ∀ k : Fin 17, x[k.val] = y[k.val]) : checksum x = checksum y := by
  have summed : summedCells x = summedCells y := by
    apply List.ext_getElem
    · simp [summedCells]
    · intro k hk _
      have hlt : k < 17 := by simpa [summedCells] using hk
      simpa [summedCells] using h ⟨k, hlt⟩
  simp only [checksum, checksumSum, summed]

/-! ### The statements -/

/-- Settles O13: reset fills the record with zero bytes, and a bit of a zero byte is 0. -/
theorem resetLeavesEveryBitZero : Obligations.ResetLeavesEveryBitZero := by
  have cell (k : Fin 18) : State.reset.block.bytes[k] = 0 := zeroCells_cell k k.isLt
  refine ⟨cell, fun b => ?_⟩
  have addressed := cell ⟨b.val / 8, by omega⟩
  rw [Fin.getElem_fin] at addressed
  rw [bitOf, addressed]
  exact BitVec.getLsbD_zero

/-- Settles O20: an idle step changes nothing, and a word that changes the block names a mutator in range. -/
theorem onlyMutatorsAndResetChangeTheRecord : Obligations.OnlyMutatorsAndResetChangeTheRecord := by
  intro s t hstep hne
  rcases hport : s.port with _ | ⟨_ | w, rest⟩
  case nil =>
    rw [step_empty hport] at hstep
    cases hstep
    exact absurd rfl hne
  case cons.reset => exact .inl ⟨rest, rfl⟩
  case cons.command =>
    rw [step_command_fields hport] at hstep
    cases hstep
    obtain ⟨i, hdecode, hi⟩ := mutatorInRange_of_blockStep_ne fun h => hne (congrArg Block.bytes h)
    exact .inr ⟨w, rest, i, rfl, hdecode, hi⟩

/-- Settles O38: the command's result replaces the block and adds one response, and a mutator writes one cell only. -/
theorem commandsChangeOnlyTheirOwnCells : Obligations.CommandsChangeOnlyTheirOwnCells := by
  intro i s t h
  obtain rfl := eq_answered_of_exec h
  refine ⟨rfl, ⟨_, rfl⟩, ?readers, ?byteWrite, ?bitWrite⟩
  case readers => rintro (rfl | rfl) k <;> rfl
  case byteWrite =>
    rintro idx data rfl k hk
    exact mutate_other_cell _ _ _ _ _ k hk
  case bitWrite => rintro idx (rfl | rfl) k hk <;> exact mutate_other_cell _ _ _ _ _ k hk

/-- Settles O39: block and response of both runs are those of `blockExec`, and each command reads its listed cells. -/
theorem resultsDependOnlyOnTheListedCells : Obligations.ResultsDependOnlyOnTheListedCells := by
  intro s u s' u' r r' hr hr'
  have both {i : Instr} (hs : exec i s = .next s') (hu : exec i u = .next u') :=
    And.intro (block_and_response_of_exec hs hr) (block_and_response_of_exec hu hr')
  refine ⟨?new, ?getRawBytes, ?setByteValue, ?setBit, ?clearBit, ?calculateChecksum⟩
  case new =>
    intro hs hu
    obtain ⟨⟨hb, rfl⟩, hb', rfl⟩ := both hs hu
    exact ⟨rfl, hb.trans hb'.symm⟩
  case getRawBytes =>
    intro hs hu
    obtain ⟨⟨-, rfl⟩, -, rfl⟩ := both hs hu
    simp only [blockExec_getRawBytes, Response.mk.injEq, true_and, Payload.bytes.injEq]
    exact packCells_eq_iff _ _
  case setByteValue =>
    intro idx data hs hu
    obtain ⟨⟨hb, -⟩, hb', -⟩ := both hs hu
    refine ⟨(indexed_results_agree rfl hs hr hu hr').1, fun k hk => ?_⟩
    rw [hb, hb', setByteValue_cell idx data _ k hk, setByteValue_cell idx data _ k hk]
  case setBit =>
    intro idx hs hu
    obtain ⟨response, cell⟩ := indexed_results_agree rfl hs hr hu hr'
    exact ⟨response, fun k _ => cell k⟩
  case clearBit =>
    intro idx hs hu
    obtain ⟨response, cell⟩ := indexed_results_agree rfl hs hr hu hr'
    exact ⟨response, fun k _ => cell k⟩
  case calculateChecksum =>
    intro hs hu hcells
    obtain ⟨⟨-, rfl⟩, -, rfl⟩ := both hs hu
    simp only [blockExec_calculateChecksum, checksum_congr hcells]

end Sys2Proof.Machine

/-! The memory (20_memory.md): the record bit by bit, what each command does to one record bit (R24, R25), when two
mutators commute (R31), and the record held in one 144-bit register (93_implementation_defined.md U9). -/

namespace Sys2Proof.Machine

/-! ### Record bits -/

/-- A record bit, read in the cell that holds it (R14). -/
theorem bitOf_eq (cells : Cells) (c : Fin 144) {k : Nat} (hk : k < 18) (h : c.val / 8 = k) :
    bitOf cells c = (cells[k]).getLsbD (7 - c.val % 8) := by
  obtain rfl := h
  rfl

/-- The record bit that stands at bit `r` of cell `k` (R14). -/
theorem exists_recordBit {k r : Nat} (hk : k < 18) (hr : r < 8) :
    ∃ c : Fin 144, c.val / 8 = k ∧ 7 - c.val % 8 = r :=
  ⟨⟨8 * k + (7 - r), by omega⟩, by dsimp only; omega, by dsimp only; omega⟩

/-- Two bytes are the same when they agree on the eight record bits of a cell. -/
theorem byte_eq_iff_recordBits {k : Nat} (hk : k < 18) (v w : Byte) :
    v = w ↔ ∀ c : Fin 144, c.val / 8 = k → v.getLsbD (7 - c.val % 8) = w.getLsbD (7 - c.val % 8) := by
  constructor
  · rintro rfl c _
    rfl
  · intro h
    apply BitVec.eq_of_getLsbD_eq
    intro r hr
    obtain ⟨c, hc, rfl⟩ := exists_recordBit hk hr
    exact h c hc

/-- Two records are the same exactly when they agree on all 144 record bits. -/
theorem cells_eq_iff_bitOf (x y : Cells) : x = y ↔ ∀ c : Fin 144, bitOf x c = bitOf y c := by
  constructor
  · rintro rfl c
    rfl
  · intro h
    refine Vector.ext fun k hk => (byte_eq_iff_recordBits hk _ _).mpr fun c hc => ?_
    rw [← bitOf_eq x c hk hc, ← bitOf_eq y c hk hc, h c]

/-- Record bit `c` stands at bit `143 - c` of the packed record (R24). -/
theorem packCells_getLsbD (cells : Cells) (c : Fin 144) :
    (packCells cells).getLsbD (143 - c.val) = bitOf cells c := by
  have place : 143 - c.val = 8 * (17 - c.val / 8) + (7 - c.val % 8) := by omega
  have cell : 17 - (17 - c.val / 8) < 18 := by omega
  rw [place, packCells_bit cells _ _ (by omega) (by omega), bitOf_eq cells c cell (by omega)]

/-! ### One command on one record bit -/

/-- What a command makes of the value `x` of record bit `c`. An index out of range addresses no record bit. -/
def bitAfter (i : Instr) (c : Fin 144) (x : Bool) : Bool :=
  match i with
  | .new => false
  | .getRawBytes => x
  | .setByteValue idx data => if c.val / 8 = idx then data.getLsbD (7 - c.val % 8) else x
  | .setBit idx => x || decide (c.val = idx)
  | .clearBit idx => x && !decide (c.val = idx)
  | .calculateChecksum => x

@[simp] theorem bitAfter_new (c : Fin 144) (x : Bool) : bitAfter .new c x = false := rfl
@[simp] theorem bitAfter_setByteValue (idx : Nat) (data : Byte) (c : Fin 144) (x : Bool) :
    bitAfter (.setByteValue idx data) c x = if c.val / 8 = idx then data.getLsbD (7 - c.val % 8) else x := rfl
@[simp] theorem bitAfter_setBit (idx : Nat) (c : Fin 144) (x : Bool) :
    bitAfter (.setBit idx) c x = (x || decide (c.val = idx)) := rfl
@[simp] theorem bitAfter_clearBit (idx : Nat) (c : Fin 144) (x : Bool) :
    bitAfter (.clearBit idx) c x = (x && !decide (c.val = idx)) := rfl

/-- A record bit after an indexed mutator whose multiplexer makes `g x` of the bit `x` at the record bit's place. -/
theorem bitOf_mutate {err : Status} {we : Bool} {sel : Nat} {c : Fin 144} (f : Byte → Byte) (g : Bool → Bool)
    (hf : ∀ old, (f old).getLsbD (7 - c.val % 8) = g (old.getLsbD (7 - c.val % 8))) (b : Block) :
    bitOf (mutate err we sel f b).1.bytes c =
      if we = true ∧ c.val / 8 = sel then g (bitOf b.bytes c) else bitOf b.bytes c := by
  have hk : c.val / 8 < 18 := by omega
  rw [mutate_eq, bitOf_eq _ c hk rfl, bitOf_eq _ c hk rfl, writeSelect_cell, ← hf]
  split <;> rfl

/-- A record bit index is its cell and its place in the cell, for an index in range. -/
theorem eq_bitIndex_iff (c : Fin 144) (idx : Nat) :
    c.val = idx ↔ (bitOk idx = true ∧ c.val / 8 = byteIndexOf idx) ∧ 7 - c.val % 8 = shiftOf idx := by
  rw [bitOk_iff, byteIndexOf, shiftOf_eq]
  omega

/-- Every command works on each record bit by itself. -/
theorem bitOf_blockExec (i : Instr) (b : Block) (c : Fin 144) :
    bitOf (blockExec i b).1.bytes c = bitAfter i c (bitOf b.bytes c) := by
  have place : 7 - c.val % 8 < 8 := by omega
  cases i with
  | new =>
    rw [blockExec_new, bitOf_eq _ c (by omega) rfl, zeroCells_cell _ (by omega)]
    exact BitVec.getLsbD_zero
  | getRawBytes => rfl
  | setByteValue idx data =>
    have inRange : byteOk idx = true ∧ c.val / 8 = idx ↔ c.val / 8 = idx := by rw [byteOk_iff]; omega
    rw [blockExec_setByteValue,
      bitOf_mutate (byteWriteData data) (fun _ => data.getLsbD (7 - c.val % 8)) fun _ => rfl]
    simp only [inRange, bitAfter_setByteValue]
  | setBit idx =>
    rw [blockExec_setBit, bitOf_mutate (rmwSet (maskOf idx)) (· || decide (7 - c.val % 8 = shiftOf idx))
      fun old => getLsbD_rmwSet _ _ old place]
    simp only [bitAfter_setBit, eq_bitIndex_iff]
    split <;> simp [*]
  | clearBit idx =>
    rw [blockExec_clearBit, bitOf_mutate (rmwClear (maskOf idx)) (· && !decide (7 - c.val % 8 = shiftOf idx))
      fun old => getLsbD_rmwClear _ _ old place]
    simp only [bitAfter_clearBit, eq_bitIndex_iff]
    split <;> simp [*]
  | calculateChecksum => rfl

/-! ### Two commands in either order -/

/-- Two commands one after the other, in a run. -/
theorem execAll_pair (i j : Instr) (s : State) : execAll [i, j] s =
    .next ((s.answered (blockExec i s.block)).answered (blockExec j (blockExec i s.block).1)) := by
  simp only [execAll, exec_eq, answered_block]

/-- Two commands commute on a record exactly when they commute on each of its bits. -/
theorem sameInEitherOrder_iff (s : State) (i j : Instr) : sameInEitherOrder s i j ↔ ∀ c : Fin 144,
    bitAfter j c (bitAfter i c (bitOf s.block.bytes c)) = bitAfter i c (bitAfter j c (bitOf s.block.bytes c)) := by
  have records : sameInEitherOrder s i j ↔
      (blockExec j (blockExec i s.block).1).1.bytes = (blockExec i (blockExec j s.block).1).1.bytes := by
    simp [sameInEitherOrder, execAll_pair]
  simp only [records, cells_eq_iff_bitOf, bitOf_blockExec]

/-- A byte write commutes with a command that works on record bit `b` alone exactly when `b` stands in another cell, or
the command keeps the bit the byte write puts there. -/
theorem sameInEitherOrder_byteWrite_iff {s : State} {i : Nat} {v : Byte} {j : Instr} (b : Fin 144)
    (hj : ∀ d ≠ b, ∀ x, bitAfter j d x = x) : sameInEitherOrder s (.setByteValue i v) j ↔
      (b.val / 8 = i → bitAfter j b (v.getLsbD (7 - b.val % 8)) = v.getLsbD (7 - b.val % 8)) := by
  rw [sameInEitherOrder_iff]
  constructor
  · intro h hb
    simpa [hb] using h b
  · intro h d
    by_cases hd : d = b
    · subst hd
      by_cases hb : d.val / 8 = i <;> simp [hb, h]
    · simp only [hj d hd]

/-- A byte masked for one record bit is zero exactly when it holds 0 there. -/
theorem and_maskOf_eq_zero_iff (v : Byte) (idx : Nat) :
    v &&& maskOf idx = 0 ↔ v.getLsbD (7 - idx % 8) = false := by
  have bit (r : Nat) : (v &&& maskOf idx).getLsbD r = (v.getLsbD r && decide (r < 8 ∧ r = 7 - idx % 8)) := by
    rw [BitVec.getLsbD_and, maskOf, getLsbD_bitMask, shiftOf_eq]
  constructor
  · intro h
    simpa [h, show 7 - idx % 8 < 8 by omega] using (bit (7 - idx % 8)).symm
  · intro h
    apply BitVec.eq_of_getLsbD_eq
    intro r _
    rw [bit]
    by_cases hr : r = 7 - idx % 8 <;> simp [hr, h]

/-! ### The record in one register -/

/-- A register that shows every record bit in its place is the packed record (R24). -/
theorem packCells_eq_of_bits {cells : Cells} {reg : RData}
    (h : ∀ c : Fin 144, bitOf cells c = reg.getLsbD (143 - c.val)) : packCells cells = reg := by
  apply BitVec.eq_of_getLsbD_eq
  intro p hp
  have bit := h ⟨143 - p, by omega⟩
  rwa [← packCells_getLsbD, show 143 - (143 - p) = p by omega] at bit

/-- Unpacking a register and packing it again gives the register back (U9). -/
theorem packCells_unpackCells (reg : RData) : packCells (unpackCells reg) = reg := by
  refine packCells_eq_of_bits fun c => ?_
  have place : 136 - 8 * (c.val / 8) + (7 - c.val % 8) = 143 - c.val := by omega
  rw [bitOf_eq _ c (by omega) rfl, unpackCells_cell, BitVec.getLsbD_extractLsb', place]
  simp [show 7 - c.val % 8 < 8 by omega]

/-- Cell `k` is the slice `rdata[143-8k : 136-8k]` of the packed record (R24). -/
theorem packCells_slice (cells : Cells) (k : Nat) (hk : k < 18) :
    (packCells cells).extractLsb' (136 - 8 * k) 8 = cells[k] := by
  rw [← unpackCells_cell _ k hk, unpackCells_packCells]

/-- The exact sum as a sum over the indices 0 to 16 (40_datapath.md R71). -/
theorem checksumSum_eq_sum (cells : Cells) : checksumSum cells = ∑ k : Fin 17, (cells[k.val]).toNat := by
  simp [checksumSum, summedCells_eq, Fin.sum_univ_succ]

/-- The checksum is the sum of the first 17 slices of the packed record. -/
theorem checksum_eq_sum_slices (cells : Cells) : checksum cells =
    BitVec.ofNat 8 (∑ k : Fin 17, ((packCells cells).extractLsb' (136 - 8 * k.val) 8).toNat) := by
  have slice (k : Fin 17) := packCells_slice cells k.val (by omega)
  simp only [slice, ← checksumSum_eq_sum]
  apply BitVec.eq_of_toNat_eq
  rw [checksum_toNat, BitVec.toNat_ofNat]

/-- A command on the packed record: it is enough to know the register it leaves, bit by bit, and its response. -/
theorem exec_completesPacked {i : Instr} {s : State} {reg : RData} {r : Response}
    (hbits : ∀ c : Fin 144, bitAfter i c (bitOf s.block.bytes c) = reg.getLsbD (143 - c.val))
    (hr : (blockExec i s.block).2 = r) : completesPacked (exec i s) s reg r := by
  refine ⟨_, exec_eq i s, packCells_eq_of_bits fun c => ?_, ?_, rfl⟩
  · rw [answered_block, bitOf_blockExec, hbits]
  · rw [answered_responses, hr]

/-- A command that changes nothing leaves the register as it is. -/
theorem exec_completesPacked_of_not_mutatorInRange {i : Instr} {r : Response} (s : State)
    (hi : ¬ mutatorInRange i) (hr : (blockExec i s.block).2 = r) :
    completesPacked (exec i s) s (packCells s.block.bytes) r := by
  refine ⟨_, exec_eq i s, ?_, ?_, rfl⟩
  · rw [answered_block, blockExec_block_of_not_mutatorInRange hi]
  · rw [answered_responses, hr]

/-- A reserved word leaves the block and answers `IllegalOp` (30_encoding.md R45; log entry 3). -/
theorem blockStep_reserved {w : Word} (h : 6 ≤ (opField w).toNat) (b : Block) :
    blockStep w b = (b, ⟨.illegalOp, .none⟩) := by
  have hdecode : decode w = .error (.reservedOp (opField w)) := by
    rcases decode_cases w with h' | h' | h' | h' | h' | h' | h'
    on_goal 7 => exact h'.2
    all_goals omega
  simp [blockStep, hdecode, blockReserved_eq]

/-- Writing a slice of the register writes the eight record bits of its cell. -/
theorem writeSlice_getLsbD (reg : RData) (data : Byte) (idx : Nat) (hidx : idx < 18) (c : Fin 144) :
    (reg &&& ~~~((0xFF#144) <<< (136 - 8 * idx)) ||| data.setWidth 144 <<< (136 - 8 * idx)).getLsbD (143 - c.val) =
      if c.val / 8 = idx then data.getLsbD (7 - c.val % 8) else reg.getLsbD (143 - c.val) := by
  have ones : (0xFF#144) = (0xFF#8).setWidth 144 := by decide
  have place : 143 - c.val = 8 * (17 - c.val / 8) + (7 - c.val % 8) := by omega
  have low : 8 * (17 - c.val / 8) + (7 - c.val % 8) < 144 := by omega
  have cell : 17 - c.val / 8 = 17 - idx ↔ c.val / 8 = idx := by omega
  have hr : 7 - c.val % 8 < 8 := by omega
  have full : (0xFF#8).getLsbD (7 - c.val % 8) = true := by
    generalize 7 - c.val % 8 = r at hr
    interval_cases r <;> rfl
  rw [place, ones, BitVec.getLsbD_or, BitVec.getLsbD_and, BitVec.getLsbD_not,
    placedByte_bit _ _ (17 - idx) _ _ (by omega) (by omega) hr,
    placedByte_bit _ _ (17 - idx) _ _ (by omega) (by omega) hr, full]
  by_cases h : c.val / 8 = idx <;> simp [cell, h, low]

/-- The register's one-bit mask for record bit `idx` is 1 at that record bit only. -/
theorem registerMask_getLsbD (idx : Nat) (hidx : idx < 144) (c : Fin 144) :
    (1#144 <<< (143 - idx)).getLsbD (143 - c.val) = decide (c.val = idx) := by
  have place : 143 - idx = 143 - c.val ↔ c.val = idx := by omega
  simp [← BitVec.twoPow_eq, BitVec.getLsbD_twoPow, place, show 143 - idx < 144 by omega]

/-! ### The statements -/

/-- Settles O42: the payload is the packed record, and the packed record shows every record bit in its place. -/
theorem rawBytesShowEveryRecordBit : Obligations.RawBytesShowEveryRecordBit := by
  intro s t rdata hexec hresp b
  obtain ⟨-, hr⟩ := block_and_response_of_exec hexec hresp
  rw [blockExec_getRawBytes] at hr
  cases hr
  exact packCells_getLsbD _ b

/-- Settles O41: a byte write works on each record bit by itself. -/
theorem byteWriteSetsItsEightBits : Obligations.ByteWriteSetsItsEightBits := by
  intro s i data
  refine ⟨_, exec_eq _ s, fun b pos hb => ?_, fun b hb => ?_⟩
  · have cell : b.val / 8 = i.val := by omega
    have position : b.val % 8 = pos.val := by omega
    simp only [answered_block, bitOf_blockExec, bitAfter_setByteValue, cell, position, if_true]
  · simp only [answered_block, bitOf_blockExec, bitAfter_setByteValue, if_neg hb]

/-- Settles O44: in each row the two orders are compared on one record bit; where they differ, that bit shows it. -/
theorem commutationTable : Obligations.CommutationTable := by
  intro s b c i j v w
  refine ⟨?setSet, ?clearClear, ?setClear, ?byteByte, ?byteSet, ?byteClear, ?newSet, ?newClear, ?newByte, ?newNew⟩
  case setSet => exact (sameInEitherOrder_iff _ _ _).mpr fun d => Bool.or_right_comm _ _ _
  case clearClear => exact (sameInEitherOrder_iff _ _ _).mpr fun d => Bool.and_right_comm _ _ _
  case setClear =>
    rw [sameInEitherOrder_iff]
    constructor
    · rintro h rfl
      simpa using h b
    · intro hbc d
      by_cases hd : d.val = b.val
      · simp [hd, Fin.val_ne_of_ne hbc]
      · simp [hd]
  case byteByte =>
    rw [sameInEitherOrder_iff, ← imp_iff_not_or, byte_eq_iff_recordBits i.isLt]
    constructor
    · rintro h rfl d hd
      simpa [hd] using (h d).symm
    · intro h d
      by_cases hi : d.val / 8 = i.val
      · by_cases hj : d.val / 8 = j.val
        · simp [← hi, ← hj, h (Fin.ext (hi.symm.trans hj)) d hi]
        · simp [hj]
      · simp [hi]
  case byteSet =>
    rw [sameInEitherOrder_byteWrite_iff b (fun d hd x => by simp [Fin.val_ne_of_ne hd]), ← imp_iff_not_or, Ne,
      and_maskOf_eq_zero_iff]
    simp
  case byteClear =>
    rw [sameInEitherOrder_byteWrite_iff b (fun d hd x => by simp [Fin.val_ne_of_ne hd]), ← imp_iff_not_or,
      and_maskOf_eq_zero_iff]
    simp
  case newSet =>
    intro h
    simpa using (sameInEitherOrder_iff _ _ _).mp h b
  case newClear => exact (sameInEitherOrder_iff _ _ _).mpr fun _ => by simp
  case newByte =>
    rw [sameInEitherOrder_iff, byte_eq_iff_recordBits i.isLt]
    refine forall_congr' fun d => ?_
    simp
  case newNew => exact (sameInEitherOrder_iff _ _ _).mpr fun _ => rfl

/-- Settles O51: packing keeps every record bit in its place, so a command's work on the record bits is one operation on
the register. -/
theorem packedRegisterRefinesTheRecord : Obligations.PackedRegisterRefinesTheRecord := by
  refine ⟨unpackCells_packCells, packCells_unpackCells, by decide, ?_⟩
  rintro s reg rfl
  refine ⟨?new, ?getRawBytes, ?setByteValue, ?byteOutOfRange, ?bits, ?bitOutOfRange, ?calculateChecksum, ?reserved⟩
  case new => exact exec_completesPacked (fun c => BitVec.getLsbD_zero.symm) rfl
  case getRawBytes => exact exec_completesPacked_of_not_mutatorInRange s id rfl
  case setByteValue =>
    intro idx data hidx
    refine exec_completesPacked (fun c => ?_) ?_
    · rw [writeSlice_getLsbD _ _ _ hidx, packCells_getLsbD, bitAfter_setByteValue]
    · rw [blockExec_setByteValue, mutate_pass _ ((byteOk_iff idx).mpr hidx), respond_response]
  case byteOutOfRange =>
    intro idx data hidx
    refine exec_completesPacked_of_not_mutatorInRange s (Nat.not_lt.mpr hidx) ?_
    rw [blockExec_setByteValue, mutate_fail _ ((byteOk_eq_false_iff idx).mpr hidx), raise_response]
  case bits =>
    intro idx hidx
    have inRange := (bitOk_iff idx).mpr hidx
    refine ⟨exec_completesPacked (fun c => ?_) ?_, exec_completesPacked (fun c => ?_) ?_⟩
    · rw [BitVec.getLsbD_or, registerMask_getLsbD idx hidx, packCells_getLsbD, bitAfter_setBit]
    · rw [blockExec_setBit, mutate_pass _ inRange, respond_response]
    · rw [BitVec.getLsbD_and, BitVec.getLsbD_not, registerMask_getLsbD idx hidx, packCells_getLsbD, bitAfter_clearBit]
      simp [show 143 - c.val < 144 by omega]
    · rw [blockExec_clearBit, mutate_pass _ inRange, respond_response]
  case bitOutOfRange =>
    intro idx hidx
    have outOfRange := (bitOk_eq_false_iff idx).mpr hidx
    refine ⟨exec_completesPacked_of_not_mutatorInRange s (Nat.not_lt.mpr hidx) ?_,
      exec_completesPacked_of_not_mutatorInRange s (Nat.not_lt.mpr hidx) ?_⟩
    · rw [blockExec_setBit, mutate_fail _ outOfRange, raise_response]
    · rw [blockExec_clearBit, mutate_fail _ outOfRange, raise_response]
  case calculateChecksum =>
    refine exec_completesPacked_of_not_mutatorInRange s id ?_
    rw [blockExec_calculateChecksum, checksum_eq_sum_slices]
  case reserved =>
    intro w hw
    refine ⟨_, runCommand_eq w s, ?_, ?_, rfl⟩
    · rw [answered_block, blockStep_reserved hw]
    · rw [answered_responses, blockStep_reserved hw]

end Sys2Proof.Machine

/-! The encoding (30_encoding.md): command words and their decoding (R41 to R47), the agreement of a response with its
status (R48), the response word (R49, R50), and the two spellings of a command (R51). -/

namespace Sys2Proof.Machine

/-! ### Decoding -/

/-- The operand fields of a word hold the operands of a command; the other fields are free (R43, R44). -/
def operandsMatch (i : Instr) (w : Word) : Prop :=
  match i with
  | .new => True
  | .getRawBytes => True
  | .setByteValue idx data => (idxField w).toNat = idx ∧ dataField w = data
  | .setBit idx => (idxField w).toNat = idx
  | .clearBit idx => (idxField w).toNat = idx
  | .calculateChecksum => True

/-- A word decodes to a command exactly when it has its opcode and its operands (R42, R43, R44). -/
theorem decode_eq_ok_iff (w : Word) (i : Instr) :
    decode w = .ok i ↔ opField w = opcode i ∧ operandsMatch i w := by
  constructor
  · intro h
    rcases decode_cases w with ⟨hop, hd⟩ | ⟨hop, hd⟩ | ⟨hop, hd⟩ | ⟨hop, hd⟩ | ⟨hop, hd⟩ | ⟨hop, hd⟩ | ⟨hop, hd⟩
    all_goals
      rw [hd] at h
      cases h
    all_goals exact ⟨BitVec.eq_of_toNat_eq hop, by simp [operandsMatch]⟩
  · rintro ⟨hop, hargs⟩
    cases i with
    | new => simp [decode, hop, opcode]
    | getRawBytes => simp [decode, hop, opcode]
    | setByteValue idx data =>
      obtain ⟨rfl, rfl⟩ := hargs
      simp [decode, hop, opcode]
    | setBit idx =>
      obtain rfl := hargs
      simp [decode, hop, opcode]
    | clearBit idx =>
      obtain rfl := hargs
      simp [decode, hop, opcode]
    | calculateChecksum => simp [decode, hop, opcode]

/-- The words that name a command are those with opcode 0 to 5 (R46). -/
theorem exists_decode_ok_iff (w : Word) : (∃ i, decode w = .ok i) ↔ (opField w).toNat < 6 := by
  rcases decode_cases w with ⟨hop, hd⟩ | ⟨hop, hd⟩ | ⟨hop, hd⟩ | ⟨hop, hd⟩ | ⟨hop, hd⟩ | ⟨hop, hd⟩ | ⟨hop, hd⟩ <;>
    simp [hd, hop]

/-- A word that names no command is refused by its opcode (R45). -/
theorem eq_reservedOp_of_decode_error {w : Word} {e : DecodeError} (h : decode w = .error e) :
    e = .reservedOp (opField w) := by
  have outcomes := decode_cases w
  simp only [h, reduceCtorEq, and_false, false_or, Except.error.injEq] at outcomes
  exact outcomes.2

/-! ### The canonical word -/

/-- The canonical word of every command stands in the command's row and is zero in its unused fields (R42, R44). -/
theorem rowOfWord (i : Instr) : Laws.RowOfWord.Statement i := by
  cases i with
  | new => exact Laws.RowOfWord.new
  | getRawBytes => exact Laws.RowOfWord.getRawBytes
  | setByteValue idx data => exact Laws.RowOfWord.setByteValue idx data
  | setBit idx => exact Laws.RowOfWord.setBit idx
  | clearBit idx => exact Laws.RowOfWord.clearBit idx
  | calculateChecksum => exact Laws.RowOfWord.calculateChecksum

/-- An index operand that fits its field is read back from it (R41, R43). -/
theorem toNat_ofNat_of_idxFits {idx : Nat} (h : idxFits idx = true) : (BitVec.ofNat 8 idx).toNat = idx := by
  have hlt : idx < 2 ^ 8 := by simpa [idxFits] using h
  rw [BitVec.toNat_ofNat, Nat.mod_eq_of_lt hlt]

/-- The canonical word of a command that fits the format holds its operands. -/
theorem operandsMatch_encode {i : Instr} (h : i.wf = true) : operandsMatch i (encode i) := by
  have index {op data : Byte} {idx : Nat} (hidx : idxFits idx = true) :
      (idxField (formatWord op (BitVec.ofNat 8 idx) data)).toNat = idx := by
    rw [idxField_formatWord, toNat_ofNat_of_idxFits hidx]
  cases i with
  | new => trivial
  | getRawBytes => trivial
  | setByteValue idx data => exact ⟨index h, dataField_formatWord _ _ _⟩
  | setBit idx => exact index h
  | clearBit idx => exact index h
  | calculateChecksum => trivial

/-- Settles O1: the canonical word has the command's opcode and its operands, and these decide what a word decodes to. -/
theorem decodeOfEncodeIsIdentity : Obligations.DecodeOfEncodeIsIdentity := by
  intro i hwf
  obtain ⟨hop, -, -⟩ := rowOfWord i
  exact (decode_eq_ok_iff _ i).mpr ⟨hop, operandsMatch_encode hwf⟩

theorem and_0xFF (x : Byte) : x &&& 0xFF = x := BitVec.and_allOnes
theorem and_0x00 (x : Byte) : x &&& 0x00 = 0 := BitVec.and_zero

/-- A word masked field by field. -/
theorem and_formatWord (w : Word) (x y z : Byte) :
    w &&& formatWord x y z = formatWord (opField w &&& x) (idxField w &&& y) (dataField w &&& z) := by
  rw [← formatWord_and, formatWord_fields]

/-- The three masks of used bits keep whole fields (R44). -/
theorem and_opMask (w : Word) : w &&& 0xFF0000 = formatWord (opField w) 0 0 := by
  rw [show (0xFF0000 : Word) = formatWord 0xFF 0 0 by decide, and_formatWord, and_0xFF, and_0x00, and_0x00]

theorem and_opIdxMask (w : Word) : w &&& 0xFFFF00 = formatWord (opField w) (idxField w) 0 := by
  rw [show (0xFFFF00 : Word) = formatWord 0xFF 0xFF 0 by decide, and_formatWord, and_0xFF, and_0xFF, and_0x00]

theorem and_wordMask (w : Word) : w &&& 0xFFFFFF = formatWord (opField w) (idxField w) (dataField w) := by
  rw [formatWord_fields]
  exact BitVec.and_allOnes

/-- Settles O2: each command uses whole fields, and the used fields of a word it is decoded from hold its opcode and its
operands. -/
theorem encodeOfDecodeKeepsUsedBits : Obligations.EncodeOfDecodeKeepsUsedBits := by
  intro w i hdecode
  obtain ⟨hop, hargs⟩ := (decode_eq_ok_iff w i).mp hdecode
  have fits : idxFits (idxField w).toNat = true := by simpa [idxFits] using (idxField w).isLt
  have index : BitVec.ofNat 8 (idxField w).toNat = idxField w := by rw [BitVec.ofNat_toNat, BitVec.setWidth_eq]
  cases i with
  | new => exact ⟨rfl, by rw [encode, usedBits, and_opMask, hop]⟩
  | getRawBytes => exact ⟨rfl, by rw [encode, usedBits, and_opMask, hop]⟩
  | setByteValue idx data =>
    obtain ⟨rfl, rfl⟩ := hargs
    exact ⟨fits, by rw [encode, usedBits, and_wordMask, hop, index]⟩
  | setBit idx =>
    obtain rfl := hargs
    exact ⟨fits, by rw [encode, usedBits, and_opIdxMask, hop, index]⟩
  | clearBit idx =>
    obtain rfl := hargs
    exact ⟨fits, by rw [encode, usedBits, and_opIdxMask, hop, index]⟩
  | calculateChecksum => exact ⟨rfl, by rw [encode, usedBits, and_opMask, hop]⟩

/-! ### The opcode table -/

/-- The `match` and `mask` columns of a row select the words with the row's opcode (R42). -/
theorem and_rowMask_eq_rowMatch_iff (w : Word) (i : Instr) : w &&& rowMask = rowMatch i ↔ opField w = opcode i := by
  obtain ⟨hop, hrow, -⟩ := rowOfWord i
  rw [← hop, ← hrow, rowMask, and_opMask, and_opMask]
  constructor
  · intro h
    simpa only [opField_formatWord] using congrArg opField h
  · intro h
    rw [h]

/-- On a word that holds a command's operands, the command's row selects exactly what decodes to the command. -/
theorem row_iff_decode {w : Word} {i : Instr} (h : operandsMatch i w) :
    w &&& rowMask = rowMatch i ↔ decode w = .ok i := by
  rw [and_rowMask_eq_rowMatch_iff, decode_eq_ok_iff, and_iff_left h]

/-- Settles O3: the operands of each row are the word's own fields, so the row alone decides. -/
theorem opcodeTableSelectsTheCommand : Obligations.OpcodeTableSelectsTheCommand := by
  intro w
  have index := idxField_toNat w
  exact ⟨row_iff_decode (i := .new) trivial, row_iff_decode (i := .getRawBytes) trivial,
    row_iff_decode (i := .setByteValue _ _) ⟨index, dataField_eq w⟩, row_iff_decode (i := .setBit _) index,
    row_iff_decode (i := .clearBit _) index, row_iff_decode (i := .calculateChecksum) trivial⟩

/-- Settles O4: the opcode decides whether a word names a command, and a refusal carries it. -/
theorem reservedOpcodesNameNoCommand : Obligations.ReservedOpcodesNameNoCommand := by
  intro w
  rw [exists_decode_ok_iff, opField_toNat]
  refine ⟨Iff.rfl, fun reserved => ?_⟩
  have op : BitVec.ofNat 8 (w.toNat / 65536) = opField w := by
    rw [← opField_toNat, BitVec.ofNat_toNat, BitVec.setWidth_eq]
  rcases hdecode : decode w with e | i
  · rw [op, eq_reservedOp_of_decode_error hdecode]
  · have named := (exists_decode_ok_iff w).mp ⟨i, hdecode⟩
    rw [opField_toNat] at named
    omega

/-! ### Unused operand fields -/

/-- Two words that decode to the same thing run the same. -/
theorem runCommand_congr {v w : Word} (h : decode v = decode w) (s : State) : runCommand v s = runCommand w s := by
  simp only [runCommand, h]

/-- A word with the same opcode decodes to the same command when that command's operands are in it too (R44). -/
theorem decode_eq_of_operandsMatch {v w : Word} {i : Instr} (hop : opField v = opField w) (hv : decode v = .ok i)
    (hw : operandsMatch i w) : decode v = decode w := by
  rw [hv, eq_comm, decode_eq_ok_iff]
  exact ⟨hop ▸ ((decode_eq_ok_iff v i).mp hv).1, hw⟩

/-- Settles O6: the two words decode to the same command, and the canonical word has no bit outside the used ones. -/
theorem unusedOperandFieldsAreIgnored : Obligations.UnusedOperandFieldsAreIgnored := by
  constructor
  · intro s v w hop hunused
    rw [step_presentWord, step_presentWord]
    obtain ⟨i, hv⟩ := (exists_decode_ok_iff v).mpr (by omega)
    obtain ⟨hi, hargs⟩ := (decode_eq_ok_iff v i).mp hv
    rw [hi] at hunused
    refine runCommand_congr (decode_eq_of_operandsMatch hop hv ?_) s
    cases i with
    | new => trivial
    | getRawBytes => trivial
    | setByteValue idx data => simp [opcode] at hunused
    | setBit idx =>
      have sameIdx : idxField v = idxField w := by simpa [opcode] using hunused
      rwa [operandsMatch, ← sameIdx]
    | clearBit idx =>
      have sameIdx : idxField v = idxField w := by simpa [opcode] using hunused
      rwa [operandsMatch, ← sameIdx]
    | calculateChecksum => trivial
  · intro i
    obtain ⟨-, -, hzero⟩ := rowOfWord i
    exact hzero

/-! ### Responses and their statuses -/

/-- The response to a command word agrees with its status (R48). -/
theorem blockStep_responseWf (w : Word) (b : Block) : responseWf (blockStep w b).2 = true := by
  obtain ⟨i, -, h⟩ | ⟨op, -, h⟩ := blockStep_cases w b
  · rw [h]
    exact (blockExec_response i b).2
  · rw [h]
    rfl

/-- What a step does to the responses: it adds none, or the block's response to one command word. -/
theorem responses_of_step {s t : State} (h : step s = .next t) :
    t.responses = s.responses ∨ ∃ w, t.responses = s.responses ++ [(blockStep w s.block).2] := by
  rcases hport : s.port with _ | ⟨_ | w, rest⟩
  case nil =>
    rw [step_empty hport] at h
    cases h
    exact .inl rfl
  case cons.reset =>
    rw [step_reset hport] at h
    cases h
    exact .inl rfl
  case cons.command =>
    rw [step_command_fields hport] at h
    cases h
    exact .inr ⟨w, rfl⟩

/-- Settles O17: a response a step adds is the block's, and that agrees with its status. -/
theorem stepKeepsResponsesWellFormed : Obligations.StepKeepsResponsesWellFormed := by
  intro s t hs hstep r hr
  obtain h | ⟨w, h⟩ := responses_of_step hstep
  · exact hs r (h ▸ hr)
  · rw [h, List.mem_append, List.mem_singleton] at hr
    rcases hr with old | rfl
    · exact hs r old
    · exact blockStep_responseWf w s.block

/-! ### The response word -/

/-- The status a code stands for (R49). -/
def statusOfCode (c : BitVec 2) : Status :=
  if c = 0 then .ok else if c = 1 then .bitOutOfBounds else if c = 2 then .byteOutOfBounds else .illegalOp

/-- The status is read back from its code. -/
theorem statusOfCode_statusCode (st : Status) : statusOfCode (statusCode st) = st := by
  cases st <;> rfl

theorem statusCode_injective : Function.Injective statusCode := Function.LeftInverse.injective statusOfCode_statusCode

/-- The two status bits of an allowed response word (R50). -/
theorem statusBits_of_allowsWord {r : Response} {v : RespWord} (h : allowsWord r v = true) :
    v.extractLsb' 144 2 = statusCode r.status := by
  rw [allowsWord, Bool.and_eq_true, decide_eq_true_eq] at h
  exact h.1

/-- Settles O52: the status bits are the top two of 146, and a code is read back as its status. -/
theorem responseWordCarriesTheStatus : Obligations.ResponseWordCarriesTheStatus := by
  refine ⟨fun r v h => ?_, fun a b h => statusCode_injective h, rfl, rfl, rfl, rfl⟩
  have hlt : v.toNat / 2 ^ 144 < 2 ^ 2 := Nat.div_lt_of_lt_mul v.isLt
  rw [← statusBits_of_allowsWord h, BitVec.extractLsb'_toNat, Nat.shiftRight_eq_div_pow, Nat.mod_eq_of_lt hlt]

/-- The payload a response word carries, read as one of the same kind as `p`; the data of `p` plays no part (R50). -/
def readPayload (p : Payload) (v : RespWord) : Payload :=
  match p with
  | .none => .none
  | .bytes _ => .bytes (v.extractLsb' 0 144)
  | .sum _ => .sum (v.extractLsb' 0 8)

/-- The payload of a response is read back from every word allowed for it (R50). -/
theorem readPayload_of_allowsWord {r : Response} {v : RespWord} (h : allowsWord r v = true) :
    readPayload r.payload v = r.payload := by
  obtain ⟨st, p⟩ := r
  rw [allowsWord, Bool.and_eq_true] at h
  obtain ⟨-, hp⟩ := h
  cases p with
  | none => rfl
  | bytes rdata => exact congrArg Payload.bytes (of_decide_eq_true hp)
  | sum c => exact congrArg Payload.sum (of_decide_eq_true hp)

/-- The kind of the payload a command word is answered with does not depend on the block (R48). -/
theorem readPayload_blockStep (w : Word) (b c : Block) (v : RespWord) :
    readPayload (blockStep w b).2.payload v = readPayload (blockStep w c).2.payload v := by
  have indexed (err : Status) (we : Bool) (sel : Nat) (f : Byte → Byte) :
      readPayload (mutate err we sel f b).2.payload v = readPayload (mutate err we sel f c).2.payload v := by
    rw [mutate_response_const err we sel f b c]
  cases hdecode : decode w with
  | error e => simp only [blockStep, hdecode, blockReserved_eq]
  | ok i =>
    simp only [blockStep, hdecode]
    cases i with
    | new => rfl
    | getRawBytes => simp only [blockExec_getRawBytes, readPayload]
    | setByteValue idx data => exact indexed _ _ _ _
    | setBit idx => exact indexed _ _ _ _
    | clearBit idx => exact indexed _ _ _ _
    | calculateChecksum => simp only [blockExec_calculateChecksum, readPayload]

/-- The response a command word gets in a run is the block's. -/
theorem response_of_runCommand {w : Word} {s t : State} {r : Response} (h : runCommand w s = .next t)
    (hr : t.responses = s.responses ++ [r]) : r = (blockStep w s.block).2 := by
  rw [runCommand_eq] at h
  cases h
  simpa using hr.symm

/-- Settles O53: the status is read off the word, and so is the payload, whose kind the command word decides. -/
theorem responseWordDeterminesTheResponse : Obligations.ResponseWordDeterminesTheResponse := by
  intro s u s' u' w r q v hs hr hu hq hrv hqv
  have status : r.status = q.status :=
    statusCode_injective ((statusBits_of_allowsWord hrv).symm.trans (statusBits_of_allowsWord hqv))
  have payload : r.payload = q.payload :=
    calc r.payload = readPayload r.payload v := (readPayload_of_allowsWord hrv).symm
      _ = readPayload q.payload v := by
        rw [response_of_runCommand hs hr, response_of_runCommand hu hq]
        exact readPayload_blockStep w s.block u.block v
      _ = q.payload := readPayload_of_allowsWord hqv
  cases r
  cases q
  exact congrArg₂ Response.mk status payload

/-! ### The two spellings of a command -/

/-- Text with no blank at either end. -/
def noBlankEnds (cs : List Char) : Prop :=
  (∀ c ∈ cs.head?, isBlank c = false) ∧ (∀ c ∈ cs.getLast?, isBlank c = false)

/-- Text with no blank at either end is left as it is. -/
theorem trim_of_noBlankEnds {cs : List Char} (h : noBlankEnds cs) : trim cs = cs := by
  obtain ⟨hfirst, hlast⟩ := h
  rcases cs with _ | ⟨c, rest⟩
  · rfl
  · have hne : c :: rest ≠ [] := List.cons_ne_nil c rest
    exact trim_of_ends c _ rest _ (List.dropLast_append_getLast hne).symm (hfirst c rfl)
      (hlast _ (List.getLast_mem_getLast? hne))

theorem noBlankEnds_of_no_blank {cs : List Char} (h : ∀ c ∈ cs, isBlank c = false) : noBlankEnds cs :=
  ⟨fun c hc => h c (List.mem_of_mem_head? hc), fun c hc => h c (List.mem_of_getLast? hc)⟩

/-- The ends of a text are those of its first and its last part. -/
theorem noBlankEnds_append {first last : List Char} (middle : List Char) (hf : noBlankEnds first)
    (hl : noBlankEnds last) (hfirst : first ≠ []) (hlast : last ≠ []) :
    noBlankEnds (first ++ (middle ++ last)) := by
  obtain ⟨c, cs, rfl⟩ := List.exists_cons_of_ne_nil hfirst
  refine ⟨hf.1, ?_⟩
  rw [List.getLast?_append_of_ne_nil _ (by simp [hlast]), List.getLast?_append_of_ne_nil _ hlast]
  exact hl.2

/-- A blank before the text is trimmed. -/
theorem trim_blank_cons (cs : List Char) : trim (' ' :: cs) = trim cs := by
  rw [trim, List.dropWhile_cons_of_pos (by decide), ← trim]

theorem splitCommas_ne_nil (cs : List Char) : splitCommas cs ≠ [] := by
  unfold splitCommas
  split
  · simp
  · simp
  · split <;> simp

/-- A blank before a list of operands does not change their values. -/
theorem operandValues_blank_cons (cs : List Char) :
    operandValues (splitCommas (' ' :: cs)) = operandValues (splitCommas cs) := by
  rw [splitCommas.eq_3 _ _ (by decide)]
  obtain ⟨part, parts, h⟩ := List.exists_cons_of_ne_nil (splitCommas_ne_nil cs)
  simp only [h, operandValues, trim_blank_cons]

/-! #### Printed operands -/

theorem operandValue_printed {n : Nat} (h : n < 256) : operandValue (trim (Nat.toDigits 10 n)) = some n := by
  obtain ⟨-, -, hvalue⟩ := printed_operand n h
  rw [trim_printed n h, hvalue]

theorem printed_ne_comma {n : Nat} (h : n < 256) : ∀ c ∈ Nat.toDigits 10 n, c ≠ ',' := by
  intro c hc
  obtain ⟨hdecimal, -, -⟩ := printed_operand n h
  obtain ⟨-, hcomma, -⟩ := isDecimal_facts c (hdecimal c hc)
  exact hcomma

/-- Printed operands are read back, one by one. -/
theorem operandValues_printOperands (n : Nat) (ns : List Nat) (h : ∀ m ∈ n :: ns, m < 256) :
    operandValues (splitCommas (printOperands (n :: ns))) = some (n :: ns) := by
  induction ns generalizing n with
  | nil =>
    have hn := h n (by simp)
    rw [printOperands, splitCommas_of_no_comma _ (printed_ne_comma hn)]
    simp only [operandValues, operandValue_printed hn]
  | cons m ns ih =>
    have hn := h n (by simp)
    have hns := ih m fun k hk => h k (List.mem_cons_of_mem n hk)
    rw [printOperands, splitCommas_comma _ _ (printed_ne_comma hn)]
    simp only [operandValues, operandValue_printed hn, operandValues_blank_cons, hns]

theorem printed_no_dash {n : Nat} (h : n < 256) : ∀ c ∈ Nat.toDigits 10 n, c ≠ '-' := by
  intro c hc
  obtain ⟨hdecimal, -, -⟩ := printed_operand n h
  obtain ⟨-, -, hdash, -⟩ := isDecimal_facts c (hdecimal c hc)
  exact hdash

theorem noBlankEnds_printed {n : Nat} (h : n < 256) : noBlankEnds (Nat.toDigits 10 n) := by
  obtain ⟨hdecimal, -, -⟩ := printed_operand n h
  exact noBlankEnds_of_no_blank fun c hc => (isDecimal_facts c (hdecimal c hc)).1

theorem printOperands_ne_nil {ns : List Nat} (hns : ns ≠ []) (h : ∀ m ∈ ns, m < 256) : printOperands ns ≠ [] := by
  obtain ⟨n, ns, rfl⟩ := List.exists_cons_of_ne_nil hns
  obtain ⟨-, hne, -⟩ := printed_operand n (h n List.mem_cons_self)
  cases ns <;> simp [printOperands, hne]

/-- Printed operands hold no comment. -/
theorem printOperands_no_dash (ns : List Nat) (h : ∀ m ∈ ns, m < 256) : ∀ c ∈ printOperands ns, c ≠ '-' := by
  induction ns using printOperands.induct with
  | case1 => simp [printOperands]
  | case2 n => exact printed_no_dash (h n List.mem_cons_self)
  | case3 n m ns ih =>
    have hn := printed_no_dash (h n List.mem_cons_self)
    have hns := ih fun k hk => h k (List.mem_cons_of_mem n hk)
    simp only [printOperands, List.mem_append, List.mem_cons]
    rintro c (hc | rfl | rfl | hc)
    · exact hn c hc
    · decide
    · decide
    · exact hns c hc

theorem noBlankEnds_printOperands (ns : List Nat) (h : ∀ m ∈ ns, m < 256) : noBlankEnds (printOperands ns) := by
  induction ns using printOperands.induct with
  | case1 => exact noBlankEnds_of_no_blank (by simp [printOperands])
  | case2 n => exact noBlankEnds_printed (h n List.mem_cons_self)
  | case3 n m ns ih =>
    obtain ⟨-, hne, -⟩ := printed_operand n (h n List.mem_cons_self)
    have tail : ∀ k ∈ m :: ns, k < 256 := fun k hk => h k (List.mem_cons_of_mem n hk)
    exact noBlankEnds_append [',', ' '] (noBlankEnds_printed (h n List.mem_cons_self)) (ih tail) hne
      (printOperands_ne_nil (List.cons_ne_nil m ns) tail)

/-- Printed operands are read back. -/
theorem readOperands_printOperands {ns : List Nat} (h : ∀ m ∈ ns, m < 256) :
    readOperands (printOperands ns) = some ns := by
  rw [readOperands, trim_of_noBlankEnds (noBlankEnds_printOperands ns h)]
  rcases ns with _ | ⟨n, ns⟩
  · rfl
  · have values := operandValues_printOperands n ns h
    obtain ⟨c, cs, hcs⟩ := List.exists_cons_of_ne_nil (printOperands_ne_nil (List.cons_ne_nil n ns) h)
    rw [hcs] at values ⊢
    exact values

/-! #### Names -/

/-- The operands of a command that fits the format fit their fields (R51). -/
theorem operandsOf_lt {i : Instr} (h : i.wf = true) : ∀ n ∈ operandsOf i, n < 256 := by
  have index {idx : Nat} (hidx : idxFits idx = true) : idx < 256 := by simpa [idxFits] using hidx
  cases i with
  | new => simp [operandsOf]
  | getRawBytes => simp [operandsOf]
  | setByteValue idx data => simpa [operandsOf, data.isLt] using index h
  | setBit idx => simpa [operandsOf] using index h
  | clearBit idx => simpa [operandsOf] using index h
  | calculateChecksum => simp [operandsOf]

/-- Both names of a command are made of letters of a mnemonic. -/
theorem isNameChar_of_mem_assemblyName (i : Instr) : ∀ c ∈ assemblyName i, isNameChar c = true := by
  rw [← List.all_eq_true]
  cases i <;> rfl

theorem isNameChar_of_mem_sourceName (i : Instr) : ∀ c ∈ sourceName i, isNameChar c = true := by
  rw [← List.all_eq_true]
  cases i <;> rfl

theorem assemblyName_ne_nil (i : Instr) : assemblyName i ≠ [] := by
  cases i <;> exact List.cons_ne_nil _ _

theorem sourceName_ne_nil (i : Instr) : sourceName i ≠ [] := by
  simpa [sourceName] using assemblyName_ne_nil i

/-- A letter of a mnemonic is no blank and no minus sign. -/
theorem isNameChar_facts {c : Char} (h : isNameChar c = true) : isBlank c = false ∧ c ≠ '-' := by
  have ne {d : Char} (hd : isNameChar d = false) : c ≠ d := by
    rintro rfl
    exact absurd h (hd ▸ Bool.false_ne_true)
  refine ⟨?_, ne (by decide)⟩
  simp [isBlank, ne (d := ' ') (by decide), ne (d := '\t') (by decide)]

/-- A command is found by its assembly name, and by its source name, with its operands. -/
theorem commandNamed_assemblyName (i : Instr) : commandNamed assemblyName (assemblyName i) (operandsOf i) = some i := by
  cases i with
  | setByteValue idx data => simp [commandNamed, operandsOf, assemblyName]
  | _ => rfl

theorem commandNamed_sourceName (i : Instr) : commandNamed sourceName (sourceName i) (operandsOf i) = some i := by
  cases i with
  | setByteValue idx data => simp [commandNamed, operandsOf, sourceName, assemblyName]
  | _ => rfl

/-- A name with the printed operands is read as the command, in a spelling that finds it. -/
theorem readCommand_printed {nameOf : Instr → List Char} {i : Instr} (h : i.wf = true)
    (hname : commandNamed nameOf (nameOf i) (operandsOf i) = some i) :
    readCommand nameOf (nameOf i) (printOperands (operandsOf i)) = some i := by
  simp only [readCommand, readOperands_printOperands (operandsOf_lt h), hname]

/-! #### Lines -/

section Lines

variable {name : List Char} (hname : ∀ c ∈ name, isNameChar c = true)
include hname

/-- A line is cut where its name ends. -/
theorem takeWhile_name (ch : Char) (rest : List Char) (hch : isNameChar ch = false) :
    (name ++ ch :: rest).takeWhile isNameChar = name := by
  simp [List.takeWhile_append_of_pos hname, hch]

theorem dropWhile_name (ch : Char) (rest : List Char) (hch : isNameChar ch = false) :
    (name ++ ch :: rest).dropWhile isNameChar = ch :: rest := by
  simp [List.dropWhile_append_of_pos hname, hch]

theorem noBlankEnds_of_name : noBlankEnds name :=
  noBlankEnds_of_no_blank fun c hc => (isNameChar_facts (hname c hc)).1

theorem name_no_dash : ∀ c ∈ name, c ≠ '-' := fun c hc => (isNameChar_facts (hname c hc)).2

/-- A name with nothing after it is a command in the assembly spelling. -/
theorem assembleLine_bare : assembleLine name = readCommand assemblyName name [] := by
  have body : trim (dropComment name) = name := by
    rw [dropComment_of_no_dash _ (name_no_dash hname), trim_of_noBlankEnds (noBlankEnds_of_name hname)]
  simp only [assembleLine, body, List.takeWhile_eq_self_iff.mpr hname, List.dropWhile_eq_nil_iff.mpr hname]

/-- A line that begins with a name, holds no minus sign and ends without a blank is read whole. -/
theorem trim_dropComment_line {middle last : List Char} (hne : name ≠ []) (hm : ∀ c ∈ middle, c ≠ '-')
    (hd : ∀ c ∈ last, c ≠ '-') (hl : noBlankEnds last) (hlast : last ≠ []) :
    trim (dropComment (name ++ (middle ++ last))) = name ++ (middle ++ last) := by
  rw [dropComment_of_no_dash]
  · exact trim_of_noBlankEnds (noBlankEnds_append middle (noBlankEnds_of_name hname) hl hne hlast)
  · simp only [List.mem_append]
    rintro c (hc | hc | hc)
    · exact name_no_dash hname c hc
    · exact hm c hc
    · exact hd c hc

/-- A blank after the name is the assembly spelling. -/
theorem assembleLine_blank (hne : name ≠ []) {ops : List Char} (hd : ∀ c ∈ ops, c ≠ '-') (hends : noBlankEnds ops)
    (hops : ops ≠ []) : assembleLine (name ++ ' ' :: ops) = readCommand assemblyName name ops := by
  have body : trim (dropComment (name ++ ' ' :: ops)) = name ++ ' ' :: ops :=
    trim_dropComment_line hname (middle := [' ']) hne (by simp) hd hends hops
  simp only [assembleLine, body, takeWhile_name hname ' ' ops (by decide), dropWhile_name hname ' ' ops (by decide)]
  rfl

/-- Parentheses after the name are the source spelling. -/
theorem assembleLine_parentheses (hne : name ≠ []) {ops : List Char} (hd : ∀ c ∈ ops, c ≠ '-') :
    assembleLine (name ++ '(' :: (ops ++ [')'])) = readCommand sourceName name ops := by
  have body : trim (dropComment (name ++ '(' :: (ops ++ [')']))) = name ++ '(' :: (ops ++ [')']) := by
    refine trim_dropComment_line hname (middle := '(' :: ops) hne ?_ (by simp) ?_ (by simp)
    · exact List.forall_mem_cons.mpr ⟨by decide, hd⟩
    · exact noBlankEnds_of_no_blank (by simp [isBlank])
  simp only [assembleLine, body, takeWhile_name hname '(' _ (by decide), dropWhile_name hname '(' _ (by decide),
    List.reverse_append, List.reverse_singleton, List.singleton_append, List.reverse_reverse]

end Lines

/-- Settles O7: each spelling is the command's name and its printed operands, and both are read back. -/
theorem assemblerReadsBothSpellings : Obligations.AssemblerReadsBothSpellings := by
  intro i hwf
  have fit := operandsOf_lt hwf
  have noDash := printOperands_no_dash _ fit
  have assembly := readCommand_printed hwf (commandNamed_assemblyName i)
  have source := readCommand_printed hwf (commandNamed_sourceName i)
  constructor
  · rw [printAssembly]
    rcases hops : operandsOf i with _ | ⟨n, ns⟩
    · rw [hops] at assembly
      exact (assembleLine_bare (isNameChar_of_mem_assemblyName i)).trans assembly
    · rw [hops] at assembly fit noDash
      rw [← assembly]
      exact assembleLine_blank (isNameChar_of_mem_assemblyName i) (assemblyName_ne_nil i) noDash
        (noBlankEnds_printOperands _ fit) (printOperands_ne_nil (List.cons_ne_nil n ns) fit)
  · rw [← source]
    exact assembleLine_parentheses (isNameChar_of_mem_sourceName i) (sourceName_ne_nil i) noDash

end Sys2Proof.Machine

/-! The datapath (40_datapath.md): the bit-address decoder and the masks (R60 to R63, R67), the bounds comparators (R64,
R65), the write select (R68 to R70), the adder of any width (R71, R72), and what the mutators do to one record bit (R74,
R75). -/

namespace Sys2Proof.Machine

/-! ### The bit-address decoder and the masks -/

/-- Inverting a 3-bit value subtracts it from 7 (R62). -/
theorem toNat_xor_seven (x : BitVec 3) : (x ^^^ 0b111#3).toNat = 7 - x.toNat := by
  have inverted : x ^^^ 0b111#3 = ~~~x := BitVec.xor_allOnes
  rw [inverted, BitVec.toNat_not]

/-- The low three bits of an 8-bit index are its remainder modulo 8. -/
theorem toNat_lowBits (idx : Byte) : (idx.extractLsb' 0 3).toNat = idx.toNat % 8 := by
  simp

/-- The mask of a record bit index, in arithmetic (R60 to R63). -/
theorem maskOf_eq (idx : Nat) : maskOf idx = 1#8 <<< (7 - idx % 8) := by
  rw [maskOf, bitMask, shiftOf_eq]

/-- A shift in range does not push the one bit out of the byte (R63). -/
theorem bitMask_toNat {shift : Nat} (h : shift < 8) : (bitMask shift).toNat = 2 ^ shift := by
  rw [bitMask, ← BitVec.twoPow_eq, BitVec.toNat_twoPow_of_lt h]

/-- The mask shifted up from bit 0 is the mask shifted down from bit 7 (R63). -/
theorem bitMask_eq_ushiftRight {shift : Nat} (h : shift < 8) : bitMask shift = 0x80#8 >>> (7 - shift) := by
  have top : 0x80#8 = bitMask 7 := by decide
  apply BitVec.eq_of_getLsbD_eq
  intro k hk
  rw [top, BitVec.getLsbD_ushiftRight, getLsbD_bitMask, getLsbD_bitMask, decide_eq_decide]
  omega

/-- The clear mask, bit by bit (R67). -/
theorem getLsbD_not8_bitMask {shift k : Nat} (hk : k < 8) :
    (not8 (bitMask shift)).getLsbD k = !decide (k = shift) := by
  simp only [not8, BitVec.getLsbD_not, getLsbD_bitMask, hk, true_and, decide_true, Bool.true_and]

/-- The forbidden clear mask `0xFE << shift` keeps only the bits above the shift (R67). -/
theorem getLsbD_forbiddenMask {shift k : Nat} (hk : k < 8) :
    (0xFE#8 <<< shift).getLsbD k = decide (shift < k) := by
  have base : 0xFE#8 = not8 (bitMask 0) := by decide
  rw [base, BitVec.getLsbD_shiftLeft, getLsbD_not8_bitMask (by omega)]
  rw [Bool.eq_iff_iff]
  simp only [Bool.and_eq_true, Bool.not_eq_true', decide_eq_false_iff_not, decide_eq_true_eq]
  omega

/-- The two clear masks differ in bit 0 as soon as there is a bit below the shift (R67). -/
theorem not8_bitMask_eq_forbiddenMask_iff (shift : Nat) :
    not8 (bitMask shift) = 0xFE#8 <<< shift ↔ shift = 0 := by
  constructor
  · intro h
    have bit0 : (!decide (0 = shift)) = decide (shift < 0) := by
      rw [← getLsbD_not8_bitMask (by omega), h, getLsbD_forbiddenMask (by omega)]
    have zero : 0 = shift := by simpa using bit0
    exact zero.symm
  · rintro rfl
    decide

/-! ### The adder -/

/-- Additions that wrap at width `w` give the exact sum modulo `2 ^ w`, whatever the width. -/
theorem toNat_foldl_add (w : Nat) (bytes : List Byte) (acc : BitVec w) :
    (bytes.foldl (fun acc b => acc + b.setWidth w) acc).toNat =
      (acc.toNat + (bytes.map BitVec.toNat).sum) % 2 ^ w := by
  induction bytes generalizing acc with
  | nil => simp [Nat.mod_eq_of_lt acc.isLt]
  | cons b bs ih => simp [ih, Nat.add_assoc]

/-- The adder of width `w` holds the exact sum modulo `2 ^ w` (R72). -/
theorem accumulate_toNat (w : Nat) (cells : Cells) : (accumulate w cells).toNat = checksumSum cells % 2 ^ w := by
  rw [accumulate, toNat_foldl_add, checksumSum]
  simp

/-- Seventeen bytes sum to at most 17 * 255 (R72). -/
theorem checksumSum_le (cells : Cells) : checksumSum cells ≤ 4335 := by
  rw [checksumSum_eq_sum]
  exact Finset.sum_le_card_nsmul Finset.univ _ 255 fun k _ => Nat.le_of_lt_succ (cells[k.val]).isLt

/-! ### The mutators -/

/-- A mutator with its index in range answers `OK` with no payload. -/
theorem blockExec_response_of_mutatorInRange {i : Instr} (h : mutatorInRange i) (b : Block) :
    (blockExec i b).2 = ⟨.ok, .none⟩ := by
  cases i with
  | new => rfl
  | getRawBytes => exact h.elim
  | setByteValue idx data =>
    rw [blockExec_setByteValue, mutate_pass b ((byteOk_iff idx).mpr h), respond_response]
  | setBit idx => rw [blockExec_setBit, mutate_pass b ((bitOk_iff idx).mpr h), respond_response]
  | clearBit idx => rw [blockExec_clearBit, mutate_pass b ((bitOk_iff idx).mpr h), respond_response]
  | calculateChecksum => exact h.elim

/-- Every command, on one record bit, does the same twice as once. -/
theorem bitAfter_idem (i : Instr) (c : Fin 144) (x : Bool) : bitAfter i c (bitAfter i c x) = bitAfter i c x := by
  cases i with
  | new => rfl
  | getRawBytes => rfl
  | setByteValue idx data => simp only [bitAfter_setByteValue]; split <;> rfl
  | setBit idx => simp only [bitAfter_setBit, Bool.or_assoc, Bool.or_self]
  | clearBit idx => simp only [bitAfter_clearBit, Bool.and_assoc, Bool.and_self]
  | calculateChecksum => rfl

/-- Every command leaves the same record when it is issued twice. -/
theorem blockExec_bytes_idem (i : Instr) (b : Block) :
    (blockExec i (blockExec i b).1).1.bytes = (blockExec i b).1.bytes := by
  refine (cells_eq_iff_bitOf _ _).mpr fun c => ?_
  simp only [bitOf_blockExec, bitAfter_idem]

/-! ### The statements -/

/-- Settles O31: each indexed mutator is a write select, and the bit mask is read off the index. -/
theorem writeSelectOfTheIndexedMutators : Obligations.WriteSelectOfTheIndexedMutators := by
  intro s idx data
  refine ⟨⟨_, exec_eq _ s, fun k => ?byteWrite⟩, ⟨_, exec_eq _ s, fun k => ?set⟩, ⟨_, exec_eq _ s, fun k => ?clear⟩,
    byteIndexOf_lt⟩
  case byteWrite => simp only [answered_block, blockExec_setByteValue, mutate_cell, byteOk_iff, byteWriteData_eq]
  case set =>
    simp only [answered_block, blockExec_setBit, mutate_cell, bitOk_iff, byteIndexOf, rmwSet, maskOf_eq]
  case clear =>
    simp only [answered_block, blockExec_clearBit, mutate_cell, bitOk_iff, byteIndexOf, rmwClear, not8, maskOf_eq]

/-- Settles O40: a bit command works on the one record bit its index names, and cell and shift name the record bit. -/
theorem bitCommandsChangeExactlyOneBit : Obligations.BitCommandsChangeExactlyOneBit := by
  refine ⟨fun s b => ⟨⟨_, exec_eq _ s, ?_, fun c hc => ?_⟩, ⟨_, exec_eq _ s, ?_, fun c hc => ?_⟩⟩, ?_, ?_⟩
  · simp [bitOf_blockExec]
  · simp [bitOf_blockExec, Fin.val_ne_of_ne hc]
  · simp [bitOf_blockExec]
  · simp [bitOf_blockExec, Fin.val_ne_of_ne hc]
  · intro b c hcell hshift
    have inRange : bitOk c.val = true := (bitOk_iff _).mpr c.isLt
    exact Fin.ext ((eq_bitIndex_iff b c.val).mpr ⟨⟨inRange, hcell⟩, (shiftOf_eq b.val).symm.trans hshift⟩)
  · intro byte shift
    obtain ⟨b, hcell, hshift⟩ := exists_recordBit byte.isLt shift.isLt
    exact ⟨b, hcell, (shiftOf_eq b.val).trans hshift⟩

/-- Settles O43: on one record bit every command is idempotent, and a mutator in range answers `OK` each time. -/
theorem mutatorsAreIdempotent : Obligations.MutatorsAreIdempotent := by
  refine ⟨fun old mask => ⟨?_, ?_⟩, fun s i hi => ⟨_, _, exec_eq i s, exec_eq i _, ?_, ?_⟩⟩
  · rw [BitVec.or_assoc, BitVec.or_self]
  · rw [BitVec.and_assoc, BitVec.and_self]
  · simp only [answered_block, blockExec_bytes_idem]
  · simp [blockExec_response_of_mutatorInRange hi]

/-- Settles O47: an adder holds the exact sum modulo `2 ^ w`; 256 divides that from width 8 on, and 4335 is less than
`2 ^ w` from width 13 on. At width 12 seventeen cells of 0xFF overflow. -/
theorem checksumDoesNotDependOnAdderWidth : Obligations.ChecksumDoesNotDependOnAdderWidth := by
  refine ⟨fun cells => ⟨fun w hw => ?byte, fun w hw => ?exact, checksumSum_le cells⟩, ?overflow⟩
  case byte =>
    have divides : 256 ∣ 2 ^ w := pow_dvd_pow 2 hw
    rw [accumulate_toNat, Nat.mod_mod_of_dvd _ divides, checksum_toNat]
  case exact =>
    have wide : 2 ^ 13 ≤ 2 ^ w := Nat.pow_le_pow_right (by decide) hw
    have bound := checksumSum_le cells
    rw [accumulate_toNat, Nat.mod_eq_of_lt (by omega)]
  case overflow =>
    have sum : checksumSum (Vector.replicate 18 0xFF) = 4335 := by decide
    refine ⟨Vector.replicate 18 0xFF, sum, ?_⟩
    rw [accumulate_toNat, sum]
    decide

/-- Settles O26: division and remainder by 8 take the upper five and the lower three bits of an 8-bit index. -/
theorem bitAddressDecoder : Obligations.BitAddressDecoder := by
  refine ⟨fun bit => ⟨rfl, intraBytePosition_eq bit, ?_, rfl, ?_⟩, fun idx => ⟨?cell, ?position, ?shift⟩⟩
  · rw [intraBytePosition_eq]; omega
  · rw [byteIndexOf]; omega
  case cell => rw [byteIndexOf, BitVec.extractLsb'_toNat, Nat.shiftRight_eq_div_pow]; omega
  case position => rw [intraBytePosition_eq, toNat_lowBits]
  case shift => rw [shiftForPosition, intraBytePosition_eq, toNat_xor_seven, toNat_lowBits]

/-- Settles O27: the mask is one power of two, so it has one bit set, from whichever end it is shifted. -/
theorem maskGeneratorIsOneHot : Obligations.MaskGeneratorIsOneHot := by
  refine fun shift => ⟨bitMask_toNat shift.isLt, fun k => ?_, bitMask_eq_ushiftRight shift.isLt⟩
  rw [getLsbD_bitMask, decide_eq_decide, Fin.ext_iff]
  exact and_iff_right k.isLt

/-- Settles O28: both masks bit by bit; at a shift other than 0 they differ in bit 0. -/
theorem clearMaskIsTheComplement : Obligations.ClearMaskIsTheComplement := by
  refine fun shift => ⟨?value, fun k => ?complement, fun k => getLsbD_forbiddenMask k.isLt, ?agree⟩
  case value => rw [not8, BitVec.toNat_not, bitMask_toNat shift.isLt]
  case complement => simp only [getLsbD_not8_bitMask k.isLt, Fin.ext_iff]
  case agree => rw [not8_bitMask_eq_forbiddenMask_iff, Fin.ext_iff]; rfl

/-- Settles O29: the bits of an index are remainders of its quotients by powers of two. -/
theorem bitBoundsComparator : Obligations.BitBoundsComparator := by
  intro idx
  simp only [bitOk_iff, byteIndexOf, Nat.testBit_eq_decide_div_mod_eq, decide_eq_true_eq, true_and]
  omega

/-- Settles O30: the upper three bits are the quotient by 32, and a bit is the remainder of a quotient. -/
theorem byteBoundsComparator : Obligations.ByteBoundsComparator := by
  refine ⟨byteOk_iff, fun idx => ?_⟩
  have upper : idx.extractLsb' 5 3 = 0 ↔ idx.toNat / 32 % 8 = 0 := by
    rw [← BitVec.toNat_inj, BitVec.extractLsb'_toNat, Nat.shiftRight_eq_div_pow]
    rfl
  rw [byteOk_iff, upper]
  simp only [← BitVec.testBit_toNat, Nat.testBit_eq_decide_div_mod_eq, decide_eq_true_eq]
  omega

end Sys2Proof.Machine

/-! Construction and raw read (41_construct_read.md): what `NEW` and `GET_RAW_BYTES` answer and leave (R80, R82), and that
a response, once sent, stays as it is (R83). -/

namespace Sys2Proof.Machine

/-- What a step can do, by the action at the head of the port: idle, reset the block, or answer a command word
(70_reset_and_hazards.md R142). -/
theorem step_cases {s t : State} (h : step s = .next t) :
    (s.port = [] ∧ t = s) ∨
    (∃ rest, s.port = .reset :: rest ∧ t = hardwareReset (s.withPort rest)) ∨
    ∃ w rest, s.port = .command w :: rest ∧ t = (s.withPort rest).answered (blockStep w s.block) := by
  rcases hport : s.port with _ | ⟨_ | w, rest⟩
  case nil =>
    rw [step_empty hport] at h
    exact .inl ⟨rfl, (Host.Outcome.next.inj h).symm⟩
  case cons.reset =>
    rw [step_reset hport] at h
    exact .inr (.inl ⟨rest, rfl, (Host.Outcome.next.inj h).symm⟩)
  case cons.command =>
    rw [step_command hport, runCommand_eq, withPort_block] at h
    exact .inr (.inr ⟨w, rest, rfl, (Host.Outcome.next.inj h).symm⟩)

@[simp] theorem commandCount_reset_cons (rest : List HostAction) :
    commandCount (.reset :: rest) = commandCount rest := rfl
@[simp] theorem commandCount_command_cons (w : Word) (rest : List HostAction) :
    commandCount (.command w :: rest) = commandCount rest + 1 := rfl

/-! ### The statements -/

/-- Settles O16: an idle step and a reset append no response, a command word appends the block's one answer. -/
theorem responsesSentNeverChange : Obligations.ResponsesSentNeverChange := by
  intro s t hstep
  obtain ⟨-, rfl⟩ | ⟨rest, hport, rfl⟩ | ⟨w, rest, hport, rfl⟩ := step_cases hstep
  · exact ⟨[], by simp⟩
  · exact ⟨[], by simp [hport]⟩
  · exact ⟨[(blockStep w s.block).2], by simp [hport, Nat.add_comm]⟩

/-- Settles O33: the payload is the packed record, and its slices are the cells. -/
theorem getRawBytesReturnsEveryCell : Obligations.GetRawBytesReturnsEveryCell := by
  intro s
  refine ⟨_, packCells s.block.bytes, exec_eq .getRawBytes s, ?response, ?slices, ?cells, answered_port _ _⟩
  case response => rw [answered_responses, blockExec_getRawBytes]
  case slices => exact fun i => packCells_slice s.block.bytes i.val i.isLt
  case cells =>
    intro k
    rw [answered_block, blockExec_getRawBytes]

/-- Settles O32: the block `NEW` leaves is the zero record, whatever the block was. -/
theorem newZeroesEveryCell : Obligations.NewZeroesEveryCell := by
  intro s
  refine ⟨_, exec_eq .new s, ?cells, ?response, answered_port _ _⟩
  case cells =>
    intro k
    rw [answered_block, blockExec_new]
    exact zeroCells_cell k.val k.isLt
  case response => rw [answered_responses, blockExec_new]

end Sys2Proof.Machine

/-! The byte write (42_byte_write.md): `SET_BYTE_VALUE` in range (R85), and what it does to the checksum (R86). -/

namespace Sys2Proof.Machine

/-! ### One cell and the checksum -/

/-- Two records that agree outside one summed cell: the exact sums differ by what that cell holds. -/
theorem checksumSum_of_eq_outside {x y : Cells} (m : Fin 17) (h : ∀ k : Fin 17, k ≠ m → y[k.val] = x[k.val]) :
    checksumSum y + (x[m.val]).toNat = checksumSum x + (y[m.val]).toNat := by
  have others : ∑ k ∈ Finset.univ.erase m, (y[k.val]).toNat = ∑ k ∈ Finset.univ.erase m, (x[k.val]).toNat :=
    Finset.sum_congr rfl fun k hk => congrArg BitVec.toNat (h k (Finset.ne_of_mem_erase hk))
  rw [checksumSum_eq_sum, checksumSum_eq_sum, ← Finset.add_sum_erase _ _ (Finset.mem_univ m),
    ← Finset.add_sum_erase _ _ (Finset.mem_univ m), others]
  omega

/-- Two records that agree outside one summed cell: the checksums differ by new minus old, modulo 256. -/
theorem checksum_of_eq_outside {x y : Cells} (m : Fin 17) (h : ∀ k : Fin 17, k ≠ m → y[k.val] = x[k.val]) :
    checksum y = checksum x + (y[m.val] - x[m.val]) := by
  have sums := checksumSum_of_eq_outside m h
  have sumX := checksum_toNat x
  have sumY := checksum_toNat y
  bv_omega

/-! ### The byte write on the block -/

/-- `SET_BYTE_VALUE` leaves every cell but the addressed one as it is. -/
theorem setByteValue_other_cell (idx : Nat) (data : Byte) (b : Block) (k : Fin 18) (h : k.val ≠ idx) :
    (blockExec (.setByteValue idx data) b).1.bytes[k] = b.bytes[k] := by
  rw [blockExec_setByteValue, mutate_other_cell _ _ _ _ _ _ h]

/-! ### The statements -/

/-- Settles O49: the write changes one cell, and cell 17 is not summed. -/
theorem byteWriteEffectOnChecksum : Obligations.ByteWriteEffectOnChecksum := by
  intro s idx data
  have written := setByteValue_cell idx.val data s.block idx rfl
  have kept (k : Fin 17) (hk : k.val ≠ idx.val) :=
    setByteValue_other_cell idx.val data s.block (k.castLE (by decide)) hk
  refine ⟨_, exec_eq _ s, fun summed => ?inside, fun last => ?outside⟩
  case inside =>
    have change := checksum_of_eq_outside ⟨idx.val, summed⟩ fun k hk => kept k (Fin.val_ne_of_ne hk)
    rw [Fin.getElem_fin] at written
    rwa [written] at change
  case outside => exact checksum_congr fun k => kept k (by omega)

/-- Settles O34: the addressed cell takes the data operand, the other cells stand, and the check in range answers `OK`. -/
theorem setByteValueReplacesTheCell : Obligations.SetByteValueReplacesTheCell := by
  intro s idx data hidx
  have ok : (blockExec (.setByteValue idx data) s.block).2 = ⟨.ok, .none⟩ :=
    blockExec_response_of_mutatorInRange (i := .setByteValue idx data) hidx s.block
  refine ⟨_, exec_eq _ s, setByteValue_cell idx data s.block, setByteValue_other_cell idx data s.block, ?response,
    answered_port _ _⟩
  case response => rw [answered_responses, ok]

end Sys2Proof.Machine

/-! Bit read-modify-write (43_bit_rmw.md): `SET_BIT` and `CLEAR_BIT` in range (R90, R91), what sequences of them leave
(R92, R93), and what they do to the checksum (R94). -/

namespace Sys2Proof.Machine

/-! ### The bit commands, bit by bit -/

/-- A sequence of commands works on each record bit by itself, one command after another. -/
theorem execAll_bits (commands : List Instr) (s : State) : ∃ t, execAll commands s = .next t ∧
    ∀ c : Fin 144, bitOf t.block.bytes c = commands.foldl (fun x i => bitAfter i c x) (bitOf s.block.bytes c) := by
  induction commands generalizing s with
  | nil => exact ⟨s, rfl, fun _ => rfl⟩
  | cons i rest ih =>
    obtain ⟨t, hrun, hbits⟩ := ih (s.answered (blockExec i s.block))
    refine ⟨t, ?_, fun c => ?_⟩
    · rw [execAll, exec_eq]
      exact hrun
    · rw [hbits, answered_block, bitOf_blockExec, List.foldl_cons]

/-- A bit command keeps every record bit but the one it names (R74). -/
theorem bitAfter_other_bit {i : Instr} {b c : Fin 144} (hi : i = .setBit b.val ∨ i = .clearBit b.val) (hc : c ≠ b)
    (x : Bool) : bitAfter i c x = x := by
  have other := Fin.val_ne_of_ne hc
  obtain rfl | rfl := hi
  · simp [other]
  · simp [other]

/-- Bit commands on different record bits commute: no record bit is named by both. -/
theorem sameInEitherOrder_of_ne {b c : Fin 144} (hbc : b ≠ c) {i j : Instr}
    (hi : i = .setBit b.val ∨ i = .clearBit b.val) (hj : j = .setBit c.val ∨ j = .clearBit c.val) (s : State) :
    sameInEitherOrder s i j := by
  refine (sameInEitherOrder_iff s i j).mpr fun d => ?_
  by_cases hd : d = b
  · have hdc : d ≠ c := hd ▸ hbc
    rw [bitAfter_other_bit hj hdc, bitAfter_other_bit hj hdc]
  · rw [bitAfter_other_bit hi hd, bitAfter_other_bit hi hd]

/-- A bit command that finds its bit as it would leave it changes nothing. -/
theorem blockExec_bytes_of_bit_kept {i : Instr} {b : Fin 144} {blk : Block}
    (hi : i = .setBit b.val ∨ i = .clearBit b.val)
    (kept : bitAfter i b (bitOf blk.bytes b) = bitOf blk.bytes b) : (blockExec i blk).1.bytes = blk.bytes := by
  refine (cells_eq_iff_bitOf _ _).mpr fun c => ?_
  rw [bitOf_blockExec]
  by_cases hc : c = b
  · rw [hc, kept]
  · exact bitAfter_other_bit hi hc _

/-- Setting a bit again that was set before it was cleared restores the record. -/
theorem setBit_clearBit_of_set {b : Fin 144} {blk : Block} (h : bitOf blk.bytes b = true) :
    (blockExec (.setBit b.val) (blockExec (.clearBit b.val) blk).1).1.bytes = blk.bytes := by
  refine (cells_eq_iff_bitOf _ _).mpr fun c => ?_
  rw [bitOf_blockExec, bitOf_blockExec]
  by_cases hc : c = b
  · simp [hc, h]
  · rw [bitAfter_other_bit (.inr rfl) hc, bitAfter_other_bit (.inl rfl) hc]

/-! ### The bit commands, cell by cell -/

/-- All a bit command in range does: its multiplexer on the addressed cell, and the response `OK`. -/
theorem exec_bitCommand_inRange {i : Instr} {idx : Nat} {f : Byte → Byte} (hidx : idx < 144)
    (hi : blockExec i = mutate .bitOutOfBounds (bitOk idx) (byteIndexOf idx) f) (s : State) :
    ∃ t, exec i s = .next t ∧
      (∀ k : Fin 18, k.val = idx / 8 → t.block.bytes[k] = f s.block.bytes[k]) ∧
      (∀ k : Fin 18, k.val ≠ idx / 8 → t.block.bytes[k] = s.block.bytes[k]) ∧
      t.responses = s.responses ++ [⟨.ok, .none⟩] ∧ t.port = s.port := by
  have ok : bitOk idx = true := (bitOk_iff idx).mpr hidx
  refine ⟨_, exec_eq i s, fun k hk => ?addressed, fun k hk => ?others, ?response, answered_port _ _⟩
  case addressed => rw [answered_block, hi, mutate_cell, if_pos ⟨ok, hk⟩]
  case others =>
    rw [answered_block, hi]
    exact mutate_other_cell _ _ _ _ _ k hk
  case response => rw [answered_responses, hi, mutate_pass _ ok, respond_response]

/-- A bit command leaves every cell but the addressed one as it is. -/
theorem bitCommand_other_cell {i : Instr} {idx : Nat} (hi : i = .setBit idx ∨ i = .clearBit idx) (blk : Block)
    (k : Fin 18) (hk : k.val ≠ idx / 8) : (blockExec i blk).1.bytes[k] = blk.bytes[k] := by
  obtain rfl | rfl := hi
  · exact mutate_other_cell _ _ _ _ _ k hk
  · exact mutate_other_cell _ _ _ _ _ k hk

/-- Setting a record bit that is 0 adds the mask to its cell. -/
theorem setBit_cell_of_clear {b : Fin 144} {blk : Block} (h : bitOf blk.bytes b = false) (k : Fin 18)
    (hk : k.val = b.val / 8) : (blockExec (.setBit b.val) blk).1.bytes[k] = blk.bytes[k] + maskOf b.val := by
  have ok : bitOk b.val = true := (bitOk_iff b.val).mpr b.isLt
  have disjoint : blk.bytes[k] &&& maskOf b.val = 0 := by
    rw [and_maskOf_eq_zero_iff, ← h, bitOf_eq _ b k.isLt hk.symm, Fin.getElem_fin]
  rw [blockExec_setBit, mutate_cell, if_pos ⟨ok, hk⟩, rmwSet, BitVec.add_eq_or_of_and_eq_zero _ _ disjoint]

/-! ### The bit commands and the checksum -/

/-- Cell 17 is not summed, so a bit command on it keeps the checksum (R27). -/
theorem checksum_bitCommand_cell17 {i : Instr} {idx : Nat} (hi : i = .setBit idx ∨ i = .clearBit idx)
    (hidx : 136 ≤ idx) (blk : Block) : checksum (blockExec i blk).1.bytes = checksum blk.bytes :=
  checksum_congr fun k => bitCommand_other_cell hi blk (k.castLE (by decide)) (by dsimp; omega)

/-- Setting a record bit of a summed cell from 0 to 1 adds its mask to the checksum. -/
theorem checksum_setBit_of_clear {b : Fin 144} {blk : Block} (hb : b.val ≤ 135) (h : bitOf blk.bytes b = false) :
    checksum (blockExec (.setBit b.val) blk).1.bytes = checksum blk.bytes + maskOf b.val := by
  have summed : b.val / 8 < 17 := by omega
  have change := checksum_of_eq_outside ⟨b.val / 8, summed⟩ fun k hk =>
    bitCommand_other_cell (.inl rfl) blk (k.castLE (by decide)) (Fin.val_ne_of_ne hk)
  have cell := setBit_cell_of_clear h ⟨b.val / 8, by omega⟩ rfl
  rw [Fin.getElem_fin, Fin.getElem_fin] at cell
  rw [change, cell, add_sub_cancel_left]

/-- Clearing a record bit of a summed cell from 1 to 0 takes its mask off the checksum: setting it again adds it. -/
theorem checksum_clearBit_of_set {b : Fin 144} {blk : Block} (hb : b.val ≤ 135) (h : bitOf blk.bytes b = true) :
    checksum (blockExec (.clearBit b.val) blk).1.bytes = checksum blk.bytes - maskOf b.val := by
  have cleared : bitOf (blockExec (.clearBit b.val) blk).1.bytes b = false := by simp [bitOf_blockExec]
  have restored := checksum_setBit_of_clear hb cleared
  rw [setBit_clearBit_of_set h] at restored
  rw [restored, add_sub_cancel_right]

/-! ### The statements -/

/-- Settles O46: the two commands one after the other, on record bit `b` and on any other. -/
theorem laterBitCommandDecides : Obligations.LaterBitCommandDecides := by
  refine ⟨fun s b => ⟨?clearLast, ?setLast⟩, fun s b c i j hbc hi hj => sameInEitherOrder_of_ne hbc hi hj s⟩
  case clearLast =>
    obtain ⟨t, hrun, hbits⟩ := execAll_bits [.setBit b.val, .clearBit b.val] s
    refine ⟨t, hrun, ?_, fun c hc => ?_⟩
    · simp [hbits]
    · simp [hbits, Fin.val_ne_of_ne hc]
  case setLast =>
    obtain ⟨t, hrun, hbits⟩ := execAll_bits [.clearBit b.val, .setBit b.val] s
    refine ⟨t, hrun, ?_, fun c hc => ?_⟩
    · simp [hbits]
    · simp [hbits, Fin.val_ne_of_ne hc]

/-- Settles O50: a change of the bit changes one summed cell by the mask, no change of the bit changes no cell, and cell
17 is not summed. -/
theorem bitCommandEffectOnChecksum : Obligations.BitCommandEffectOnChecksum := by
  intro s b
  refine ⟨⟨_, exec_eq _ s, checksum_setBit_of_clear, fun set => ?setKept,
      fun last => checksum_bitCommand_cell17 (.inl rfl) last s.block⟩,
    ⟨_, exec_eq _ s, checksum_clearBit_of_set, fun clear => ?clearKept,
      fun last => checksum_bitCommand_cell17 (.inr rfl) last s.block⟩⟩
  case setKept => rw [answered_block, blockExec_bytes_of_bit_kept (.inl rfl) (by simp [set])]
  case clearKept => rw [answered_block, blockExec_bytes_of_bit_kept (.inr rfl) (by simp [clear])]

/-- Settles O35: the multiplexer of `SET_BIT` is the OR with the mask of the index. -/
theorem setBitOrsTheMask : Obligations.SetBitOrsTheMask := by
  intro s idx hidx
  simpa only [rmwSet, maskOf_eq] using exec_bitCommand_inRange hidx (funext (blockExec_setBit idx)) s

/-- Settles O36: the multiplexer of `CLEAR_BIT` is the AND with the complement of the mask of the index. -/
theorem clearBitAndsTheComplement : Obligations.ClearBitAndsTheComplement := by
  intro s idx hidx
  simpa only [rmwClear, not8, maskOf_eq] using exec_bitCommand_inRange hidx (funext (blockExec_clearBit idx)) s

/-- Settles O45: both orders on bits 120 and 127, and, from a new record, on the eight bits of cell 15. -/
theorem regressionScenario : Obligations.RegressionScenario := by
  intro s
  obtain ⟨t, hrun, hbits⟩ := execAll_bits [.setBit 120, .setBit 127, .clearBit 127] s
  obtain ⟨u, hrun', hbits'⟩ := execAll_bits [.setBit 120, .setBit 127, .clearBit 120] s
  refine ⟨⟨t, hrun, ?_, ?_⟩, ⟨u, hrun', ?_, ?_⟩, fun hnew => ⟨t, hrun, ?cell15⟩⟩
  · simp [hbits]
  · simp [hbits]
  · simp [hbits']
  · simp [hbits']
  case cell15 =>
    have scenario : ∀ c : Fin 144, c.val / 8 = 15 →
        [Instr.setBit 120, .setBit 127, .clearBit 127].foldl (fun x i => bitAfter i c x) false =
          (0x80 : Byte).getLsbD (7 - c.val % 8) := by decide
    refine (byte_eq_iff_recordBits (k := 15) (by decide) _ _).mpr fun c hc => ?_
    rw [← bitOf_eq _ c (by decide) hc, hbits, hnew, resetLeavesEveryBitZero.2 c, scenario c hc]

end Sys2Proof.Machine

/-! The checksum command (44_checksum.md): what `CALCULATE_CHECKSUM` answers (R100), and that the order of the summed
cells does not matter (R71). -/

namespace Sys2Proof.Machine

/-- Rearranging cells 0 to 16 in any way keeps the checksum: the exact sum has the same terms (40_datapath.md R71). -/
theorem checksum_of_rearranged {x y : Cells} (σ : Equiv.Perm (Fin 17))
    (h : ∀ k : Fin 17, x[k.val] = y[(σ k).val]) : checksum x = checksum y := by
  have sums : checksumSum x = checksumSum y :=
    calc checksumSum x = ∑ k : Fin 17, (x[k.val]).toNat := checksumSum_eq_sum x
      _ = ∑ k : Fin 17, (y[(σ k).val]).toNat := Finset.sum_congr rfl fun k _ => congrArg BitVec.toNat (h k)
      _ = ∑ k : Fin 17, (y[k.val]).toNat := Equiv.sum_comp σ fun k => (y[k.val]).toNat
      _ = checksumSum y := (checksumSum_eq_sum y).symm
  rw [checksum, checksum, sums]

/-- Settles O37: the command leaves the block as it is and answers its checksum, the sum over the indices 0 to 16. -/
theorem calculateChecksumReturnsTheSum : Obligations.CalculateChecksumReturnsTheSum := by
  intro s
  refine ⟨_, checksum s.block.bytes, exec_eq .calculateChecksum s, ?response, ?sum, ?cells, answered_port _ _⟩
  case response => rw [answered_responses, blockExec_calculateChecksum]
  case sum => rw [checksum_toNat, checksumSum_eq_sum]
  case cells =>
    intro k
    rw [answered_block, blockExec_calculateChecksum]

/-- Settles O48: the checksum reads cells 0 to 16 only, and a swap of two of them is a rearrangement. -/
theorem checksumIgnoresCell17AndOrder : Obligations.ChecksumIgnoresCell17AndOrder := by
  refine ⟨fun x y => checksum_congr, fun x y i j hi hj others => checksum_of_rearranged (Equiv.swap i j) fun k => ?_⟩
  by_cases hki : k = i
  · simp only [hki, Equiv.swap_apply_left, hi]
  by_cases hkj : k = j
  · simp only [hkj, Equiv.swap_apply_right, hj]
  · simp only [Equiv.swap_apply_of_ne_of_ne hki hkj, others k hki hkj]

end Sys2Proof.Machine

/-! Exceptions (60_exceptions.md): which command raises which error (R110 to R113, R118), that a failed command changes
nothing (R115), and that a run of failing commands leaves the record (R117). -/

namespace Sys2Proof.Machine

/-! ### The status of a command -/

/-- The status a command ends with, which depends on the command alone (R110, R118). -/
def statusOfInstr : Instr → Status
  | .new => .ok
  | .getRawBytes => .ok
  | .setByteValue idx _ => if idx < 18 then .ok else .byteOutOfBounds
  | .setBit idx => if idx < 144 then .ok else .bitOutOfBounds
  | .clearBit idx => if idx < 144 then .ok else .bitOutOfBounds
  | .calculateChecksum => .ok

/-- The status of an indexed mutator is decided by its bounds check (40_datapath.md R69). -/
theorem mutate_status (err : Status) (we : Bool) (sel : Nat) (f : Byte → Byte) (b : Block) :
    (mutate err we sel f b).2.status = if we = true then .ok else err := by
  rw [mutate_eq]

/-- The block answers every command with its status, whatever the record holds. -/
theorem blockExec_status (i : Instr) (b : Block) : (blockExec i b).2.status = statusOfInstr i := by
  cases i with
  | new => rfl
  | getRawBytes => rfl
  | setByteValue idx data => simp only [blockExec_setByteValue, mutate_status, byteOk_iff, statusOfInstr]
  | setBit idx => simp only [blockExec_setBit, mutate_status, bitOk_iff, statusOfInstr]
  | clearBit idx => simp only [blockExec_clearBit, mutate_status, bitOk_iff, statusOfInstr]
  | calculateChecksum => rfl

theorem statusOfInstr_eq_bitOutOfBounds_iff (i : Instr) :
    statusOfInstr i = .bitOutOfBounds ↔ ∃ idx, (i = .setBit idx ∨ i = .clearBit idx) ∧ 144 ≤ idx := by
  cases i <;> simp [statusOfInstr, ite_eq_iff]

theorem statusOfInstr_eq_byteOutOfBounds_iff (i : Instr) :
    statusOfInstr i = .byteOutOfBounds ↔ ∃ idx data, i = .setByteValue idx data ∧ 18 ≤ idx := by
  cases i <;> simp [statusOfInstr, ite_eq_iff]

/-- The status a command adds to the responses of a run. -/
theorem status_of_exec {i : Instr} {s t : State} {r : Response} (h : exec i s = .next t)
    (hr : t.responses = s.responses ++ [r]) : r.status = statusOfInstr i := by
  obtain ⟨-, rfl⟩ := block_and_response_of_exec h hr
  exact blockExec_status i s.block

/-- A command that raises an error adds the error to the responses of a run and changes nothing else (R115). -/
theorem exec_of_blockExec_eq_raise {i : Instr} {e : Status} {s : State} (h : blockExec i s.block = raise e s.block) :
    exec i s = .next { s with responses := s.responses ++ [⟨e, .none⟩] } := by
  rw [exec_eq, h]
  rfl

/-! ### The status of a command word -/

/-- The fields of a word that names a command give that command's status. -/
theorem statusOfWord_of_decode_ok {w : Word} {i : Instr} (h : decode w = .ok i) : statusOfWord w = statusOfInstr i := by
  obtain ⟨hop, hargs⟩ := (decode_eq_ok_iff w i).mp h
  simp only [statusOfWord, hop]
  cases i with
  | new => rfl
  | getRawBytes => rfl
  | setByteValue idx data =>
    obtain ⟨rfl, -⟩ := hargs
    rfl
  | setBit idx =>
    obtain rfl := hargs
    rfl
  | clearBit idx =>
    obtain rfl := hargs
    rfl
  | calculateChecksum => rfl

/-- A word that names no command has an opcode of 6 or more (30_encoding.md R45). -/
theorem statusOfWord_of_decode_error {w : Word} {e : DecodeError} (h : decode w = .error e) :
    statusOfWord w = .illegalOp := by
  have reserved : ¬ (opField w).toNat < 6 := by simp [← exists_decode_ok_iff, h]
  exact if_pos (Nat.le_of_not_lt reserved)

/-- The block answers every word with the status its fields give (R110). -/
theorem blockStep_status (w : Word) (b : Block) : (blockStep w b).2.status = statusOfWord w := by
  obtain ⟨i, hdecode, h⟩ | ⟨op, hdecode, h⟩ := blockStep_cases w b
  · rw [h, blockExec_status, statusOfWord_of_decode_ok hdecode]
  · rw [h, statusOfWord_of_decode_error hdecode]

/-- The failing words are those whose fields give an error (R110). -/
theorem failingWord_iff_statusOfWord_ne_ok (w : Word) : failingWord w ↔ statusOfWord w ≠ .ok := by
  simp only [failingWord, statusOfWord]
  split_ifs
  · exact iff_of_true (by omega) Status.noConfusion
  · exact iff_of_false (by omega) fun ok => ok rfl
  · exact iff_of_true (by omega) Status.noConfusion
  · exact iff_of_false (by omega) fun ok => ok rfl
  · exact iff_of_true (by omega) Status.noConfusion
  · exact iff_of_false (by omega) fun ok => ok rfl

/-! ### What an error leaves -/

/-- A response that agrees with its status carries no payload with an error (30_encoding.md R48). -/
theorem payload_eq_none_of_status_ne_ok {r : Response} (hwf : responseWf r = true) (h : r.status ≠ .ok) :
    r.payload = .none := by
  obtain ⟨st, p⟩ := r
  cases st with
  | ok => exact absurd rfl h
  | bitOutOfBounds => exact of_decide_eq_true hwf
  | byteOutOfBounds => exact of_decide_eq_true hwf
  | illegalOp => exact of_decide_eq_true hwf

/-- A word answered with an error leaves the block as it is (R115): a mutator in range would have answered `OK`. -/
theorem blockStep_block_of_status_ne_ok {w : Word} {b : Block} (h : (blockStep w b).2.status ≠ .ok) :
    (blockStep w b).1 = b := by
  obtain ⟨i, -, hstep⟩ | ⟨_, -, hstep⟩ := blockStep_cases w b
  · rw [hstep] at h ⊢
    exact blockExec_block_of_not_mutatorInRange (fun hi => h (by rw [blockExec_response_of_mutatorInRange hi])) b
  · rw [hstep]

/-- A step on a failing word takes it off the port and adds its response; the block stands. -/
theorem step_failingWord {s : State} {w : Word} {rest : List HostAction} (hport : s.port = .command w :: rest)
    (hw : failingWord w) : step s = .next ⟨s.block, rest, s.responses ++ [(blockStep w s.block).2]⟩ := by
  have failed : (blockStep w s.block).2.status ≠ .ok := by
    rwa [blockStep_status, ← failingWord_iff_statusOfWord_ne_ok]
  rw [step_command_fields hport, blockStep_block_of_status_ne_ok failed]

/-- As many steps as there are failing words at the port leave the block as it was (R117). -/
theorem run_failingWords (port : List HostAction) (s : State) (hport : s.port = port)
    (hfail : ∀ a ∈ port, ∃ w, a = .command w ∧ failingWord w) :
    ∃ t : State, (Host.Core.run Sys2Proof.core port.length s : Outcome) = .next t ∧ t.block = s.block := by
  induction port generalizing s with
  | nil => exact ⟨s, rfl, rfl⟩
  | cons a rest ih =>
    rw [List.forall_mem_cons] at hfail
    obtain ⟨⟨w, rfl, hw⟩, hrest⟩ := hfail
    obtain ⟨t, hrun, hblock⟩ := ih ⟨s.block, rest, s.responses ++ [(blockStep w s.block).2]⟩ rfl hrest
    exact ⟨t, (run_succ _ _ _ (step_failingWord hport hw)).trans hrun, hblock⟩

/-! ### The statements -/

/-- Settles O21: a failed check of `SET_BIT` or `CLEAR_BIT` raises the error, and only these two commands have it. -/
theorem bitOutOfBoundsExactly : Obligations.BitOutOfBoundsExactly := by
  refine ⟨rfl, fun idx s hidx => ?raised, fun i s t r hexec hr => ?only⟩
  case raised =>
    have outOfRange := (bitOk_eq_false_iff idx).mpr hidx
    exact ⟨exec_of_blockExec_eq_raise (mutate_fail s.block outOfRange),
      exec_of_blockExec_eq_raise (mutate_fail s.block outOfRange)⟩
  case only => rw [status_of_exec hexec hr, statusOfInstr_eq_bitOutOfBounds_iff]

/-- Settles O22: a failed check of `SET_BYTE_VALUE` raises the error, and only this command has it. -/
theorem byteOutOfBoundsExactly : Obligations.ByteOutOfBoundsExactly := by
  refine ⟨rfl, fun idx data s hidx => ?raised, fun i s t r hexec hr => ?only⟩
  case raised => exact exec_of_blockExec_eq_raise (mutate_fail s.block ((byteOk_eq_false_iff idx).mpr hidx))
  case only => rw [status_of_exec hexec hr, statusOfInstr_eq_byteOutOfBounds_iff]

/-- Settles O23: the response a step adds is the block's, which has the word's status and agrees with it. -/
theorem statusIsFixedByTheWord : Obligations.StatusIsFixedByTheWord := by
  intro s w rest hport
  have status := blockStep_status w s.block
  refine ⟨_, (blockStep w s.block).2.payload, step_command_fields hport, ?_, fun hne => ?_⟩
  · rw [← status]
  · exact payload_eq_none_of_status_ne_ok (blockStep_responseWf w s.block) (status ▸ hne)

/-- Settles O24: the response a step adds is the block's, and with an error the block's step leaves the block. -/
theorem failedCommandChangesNothing : Obligations.FailedCommandChangesNothing := by
  intro s t w rest r hport hstep hr hne
  rw [step_command_fields hport] at hstep
  cases hstep
  obtain rfl : (blockStep w s.block).2 = r := by simpa using hr
  rw [blockStep_block_of_status_ne_ok hne]

/-- Settles O25, by induction on the words at the port. -/
theorem failingCommandsLeaveTheRecord : Obligations.FailingCommandsLeaveTheRecord := by
  intro s hfail
  obtain ⟨t, hrun, hblock⟩ := run_failingWords s.port s rfl hfail
  exact ⟨t, hrun, congrArg Block.bytes hblock⟩

end Sys2Proof.Machine

/-! Reset (70_reset_and_hazards.md): a hardware reset has the effect of `NEW` on the record, and no response (R130). -/

namespace Sys2Proof.Machine

/-- `NEW` leaves the block a hardware reset leaves, whatever the block was (R80, R130). -/
theorem blockExec_new_block (b : Block) : (blockExec .new b).1 = Block.reset := by
  rw [blockExec_new, Block.reset]

/-- Settles O12: the step on a reset is `hardwareReset`, which replaces the block by the reset block, as `NEW` does. -/
theorem hostResetZeroesTheRecord : Obligations.HostResetZeroesTheRecord := by
  intro s rest hport
  refine ⟨_, step_reset hport, ?cells, hardwareReset_port _, hardwareReset_responses _, ?record, _, exec_eq .new s, ?new⟩
  case cells => exact fun k => zeroCells_cell k.val k.isLt
  case record => rw [hardwareReset_block, reset_block]
  case new => rw [answered_block, blockExec_new_block, hardwareReset_block]

end Sys2Proof.Machine

/-! The port and runs: what one step takes off the port (70_reset_and_hazards.md R142), the responses of a whole run (R141),
and the block by itself behind a run (00_scope.md R7); reserved words (60_exceptions.md R113), words placed at the port. -/

namespace Sys2Proof.Machine

/-! ### One step -/

/-- A step takes exactly the first pending action off the port, whatever the action is. -/
theorem step_takes_action {s : State} {a : HostAction} {rest : List HostAction} (hport : s.port = a :: rest) :
    ∃ t, step s = .next t ∧ t.port = rest := by
  cases a with
  | reset => exact ⟨_, step_reset hport, rfl⟩
  | command w => exact ⟨_, step_command_fields hport, rfl⟩

/-- The port's step is total: idle with nothing pending, else the first action is performed. -/
theorem exists_step (s : State) : ∃ t, step s = .next t := by
  rcases hport : s.port with _ | ⟨a, rest⟩
  case nil => exact ⟨s, step_empty hport⟩
  case cons =>
    obtain ⟨t, hstep, -⟩ := step_takes_action hport
    exact ⟨t, hstep⟩

/-- The reserved words, and no others, have the status `IllegalOp`: no command has it (R113). -/
theorem statusOfWord_eq_illegalOp_iff (w : Word) : statusOfWord w = .illegalOp ↔ 6 ≤ (opField w).toNat := by
  constructor
  · intro illegal
    by_contra notReserved
    obtain ⟨i, hdecode⟩ := (exists_decode_ok_iff w).mpr (Nat.lt_of_not_le notReserved)
    refine (blockExec_response i Block.reset).1 ?_
    rw [blockExec_status, ← statusOfWord_of_decode_ok hdecode, illegal]
  · intro reserved
    exact if_pos reserved

/-- A table word that is read as a command decodes to it. -/
theorem decode_of_decodeTableWord {nbits w : Nat} {i : Instr} (h : decodeTableWord nbits w = some i) :
    decode (tableWord nbits w) = .ok i := by
  rw [decodeTableWord] at h
  obtain ⟨-, h⟩ := Option.ite_none_right_eq_some.mp h
  cases hdecode : decode (tableWord nbits w) with
  | error e => simp [hdecode] at h
  | ok j => simpa [hdecode] using h

/-! ### Runs -/

/-- The steps of a run that takes every action off the port, with one response per command (R141). -/
theorem run_port (port : List HostAction) (s : State) (hport : s.port = port) :
    ∃ t : State, (Host.Core.run Sys2Proof.core port.length s : Outcome) = .next t ∧ t.port = [] ∧
      ∃ rs : List Response, t.responses = s.responses ++ rs ∧ rs.length = commandCount port := by
  induction port generalizing s with
  | nil => exact ⟨s, rfl, hport, [], by simp, rfl⟩
  | cons a rest ih =>
    obtain ⟨t, hstep, ht⟩ := step_takes_action hport
    obtain ⟨first, hfirst, hcount⟩ := responsesSentNeverChange s t hstep
    obtain ⟨u, hrun, hu, later, hlater, hlength⟩ := ih t ht
    refine ⟨u, (run_succ _ _ _ hstep).trans hrun, hu, first ++ later, ?_, ?_⟩
    · rw [hlater, hfirst, List.append_assoc]
    · rw [List.length_append, hlength, ← hport, ← hcount, ht]

theorem blockRun_cons (w : Word) (ws : List Word) (b : Block) : blockRun (w :: ws) b =
    ((blockRun ws (blockStep w b).1).1, (blockStep w b).2 :: (blockRun ws (blockStep w b).1).2) := rfl

/-- The block answers every word of a list once (R141). -/
theorem blockRun_length (ws : List Word) (b : Block) : (blockRun ws b).2.length = ws.length := by
  induction ws generalizing b with
  | nil => rfl
  | cons w ws ih => rw [blockRun_cons, List.length_cons, List.length_cons, ih]

/-- A list of words followed by another goes on from the block the first list left (20_memory.md R30). -/
theorem blockRun_append (ws vs : List Word) (b : Block) : blockRun (ws ++ vs) b =
    ((blockRun vs (blockRun ws b).1).1, (blockRun ws b).2 ++ (blockRun vs (blockRun ws b).1).2) := by
  induction ws generalizing b with
  | nil => rfl
  | cons w ws ih => rw [List.cons_append, blockRun_cons, ih, blockRun_cons, List.cons_append]

/-- A run of command words is the block's run, with the responses added to the earlier ones (R7, R141). -/
theorem run_words (ws : List Word) (s : State) (hport : s.port = ws.map .command) :
    (Host.Core.run Sys2Proof.core ws.length s : Outcome) =
      .next ⟨(blockRun ws s.block).1, [], s.responses ++ (blockRun ws s.block).2⟩ := by
  induction ws generalizing s with
  | nil => exact congrArg Host.Outcome.next (state_ext rfl hport (List.append_nil _).symm)
  | cons w ws ih =>
    calc (Host.Core.run Sys2Proof.core (ws.length + 1) s : Outcome)
      _ = Host.Core.run Sys2Proof.core ws.length
            ⟨(blockStep w s.block).1, ws.map .command, s.responses ++ [(blockStep w s.block).2]⟩ :=
          run_succ _ _ _ (step_command_fields hport)
      _ = .next ⟨(blockRun (w :: ws) s.block).1, [], s.responses ++ (blockRun (w :: ws) s.block).2⟩ := by
          rw [ih _ rfl, blockRun_cons, List.append_assoc, List.singleton_append]

/-! ### The statements -/

/-- Settles O11: `IllegalOp` is the status the word's fields give, and a reserved word leaves the block. -/
theorem illegalOpExactlyForReservedWords : Obligations.IllegalOpExactlyForReservedWords := by
  refine ⟨rfl, fun s w rest hport => ⟨_, _, step_command_fields hport, rfl, ?status, fun reserved => ?unchanged⟩⟩
  case status => rw [blockStep_status, statusOfWord_eq_illegalOp_iff]
  case unchanged =>
    rw [blockStep_reserved reserved]
    exact ⟨rfl, rfl, _, List.mem_append_right _ (List.mem_singleton_self _), rfl⟩

/-- Settles O14: the port's step is total, and a command in a run is the block's. -/
theorem everyStepAnswersANextState : Obligations.EveryStepAnswersANextState :=
  ⟨exists_step, fun i s => ⟨_, exec_eq i s⟩⟩

/-- Settles O15, by induction on the actions at the port. -/
theorem runTakesOneStepPerHostAction : Obligations.RunTakesOneStepPerHostAction :=
  fun s => run_port s.port s rfl

/-- Settles O55, by induction on the words; the closing word runs `GET_RAW_BYTES` on the block the others left. -/
theorem runIsTheBlocksRun : Obligations.RunIsTheBlocksRun := by
  intro s ws hport
  have closing (b : Block) : blockRun [0x010000] b = (b, [⟨.ok, .bytes (packCells b.bytes)⟩]) := rfl
  exact ⟨run_words ws s hport, blockRun_length ws s.block, by rw [blockRun_append, closing]⟩

/-- Settles O5: each word is one of fixed bits, read field by field. -/
theorem wordsOfTheSpecDecode : Obligations.WordsOfTheSpecDecode :=
  ⟨rfl, rfl, rfl, rfl, rfl, rfl, rfl, rfl⟩

/-- Settles O9: the placed word stands at the head of the port. -/
theorem placedWordIsTheNextCommand : Obligations.PlacedWordIsTheNextCommand := by
  intro s w i h
  rw [State.withFetchWord, step_presentWord, runCommand_ok s (decode_of_decodeTableWord h)]

/-- Settles O10: the step on an empty port is idle. -/
theorem emptyPortWaits : Obligations.EmptyPortWaits := fun _ => step_empty

/-- Settles O18: the list of responses is empty at reset. -/
theorem resetResponsesAreWellFormed : Obligations.ResetResponsesAreWellFormed := by
  intro r hr
  rw [reset_responses] at hr
  cases hr

/-- Settles O54: the record is the whole block, and a command word at the port is a step of the block. -/
theorem stepIsTheBlocksStep : Obligations.StepIsTheBlocksStep :=
  ⟨fun _ _ => block_ext, fun _ _ _ => step_command_fields⟩

end Sys2Proof.Machine
